-- ==== Sys2Proof/Word.lean ====
section
/-! DEFINITION. The words of the block: the 16-bit command (R80), the 32-bit response (R84), the 2-bit symbol (R71). -/

namespace Sys2Proof

/-- One command word as a port presents it (R80). -/
abbrev Cmd := BitVec 16

/-- One response word of port Q (R84). -/
abbrev Word := BitVec 32

/-- One symbol (R71). It is a bit vector because the symbol ring stores it bit by bit (R110). -/
abbrev Symbol := BitVec 2

/-- The symbol "0" (R71). -/
abbrev symZero : Symbol := 0

/-- The symbol "1" (R71). -/
abbrev symOne : Symbol := 1

/-- Mark (R71). -/
abbrev symMark : Symbol := 2

/-- Invalid: "amplitude pattern inconsistent with any valid symbol" (R71). -/
abbrev symInvalid : Symbol := 3

end Sys2Proof
end

