-- ==== Sys2Proof/Config.lean ====
section
/-! DEFINITION. The construction parameters of one decoder instance (R6 to R11), the groups of the frame
(R78) and the free values, which the spec leaves unspecified (R84, R243, U2). -/

namespace Sys2Proof

/-- The reading of the `sos` scan when no edge is positive (R10, D6, U3). -/
inductive SosScan where
  /-- the least index of the greatest edge, whatever its sign (the default) -/
  | argmax
  /-- the running maximum starts at the constant 0, at index 0 -/
  | zeroInit
  /-- `sos` keeps its value when no edge is positive -/
  | hold
deriving DecidableEq, Repr

/-- What an Invalid symbol in the frame window does (R10, R165, D12, U8). -/
inductive InvalidPolicy where
  /-- it rejects the frame with `ferr = 3` (the default) -/
  | reject
  /-- its value 3 enters the weighted sums -/
  | literal
deriving DecidableEq, Repr

/-- The parameters fixed when an instance is built (R6 to R10). No step changes them (R9). -/
structure Params where
  /-- `SUBSEC`, ticks per second (R6) -/
  subsec : Nat
  /-- `HISTORY`, seconds of raw samples retained (R7) -/
  history : Nat
  /-- `SYMBOLS`, capacity of the symbol ring (R8) -/
  symbols : Nat
  /-- `FORCE_TSS`, the forcing threshold (R10, R126, D8) -/
  forceTss : Nat
  /-- `HEALTH_PCT_THR` (R10, R198, D18) -/
  healthPctThr : Nat
  /-- `REF_BUCKET` (R10, R199, D19) -/
  refBucket : Nat
  /-- `INVALID_POLICY` (R10, R165, D12) -/
  invalidPolicy : InvalidPolicy
  /-- `SOS_SCAN` (R10, R124, D6) -/
  sosScan : SosScan
  /-- `UT1_RELAX`, of the companion calendar engine (R10, R215) -/
  ut1Relax : Nat
deriving DecidableEq, Repr

namespace Params

/-- The defaults of R6 to R10: `CWWVB-S50-Y61-H40` (R1). -/
def default : Params where
  subsec := 50
  history := 40
  symbols := 61
  forceTss := 50
  healthPctThr := 97
  refBucket := 0
  invalidPolicy := .reject
  sosScan := .argmax
  ut1Relax := 10

/-- `BUFFER = SUBSEC × HISTORY`, capacity of the raw window (R7). -/
def buffer (p : Params) : Nat := p.subsec * p.history

/-- `HEALTH_MAX = SYMBOLS × SUBSEC` (R11). -/
def healthMax (p : Params) : Nat := p.symbols * p.subsec

/-- The bounds of R6, R7, R8: what a configuration of this block satisfies. -/
abbrev Legal (p : Params) : Prop :=
  2 ≤ p.subsec ∧ p.subsec ≤ 255 ∧ 1 ≤ p.history ∧ p.buffer ≤ 4096 ∧ 61 ≤ p.symbols ∧ p.symbols ≤ 4096

end Params

namespace Config

/-- The ten BCD digit groups and the four other weighted sums of the frame (R78). -/
inductive Group where
  | minTens | minUnits | hourTens | hourUnits | dayHundreds | dayTens | dayUnits
  | ut1Mag | yearTens | yearUnits | ut1Sign | leapYear | leapSecond | dst
deriving DecidableEq, Repr

/-- FREE VALUE (R84, R243, U2): `q_data` of a command that faulted or found the block halted. -/
opaque freeData : Nat → Word

/-- FREE VALUE (R243, U2): `ev_second` of a command that faulted or found the block halted. -/
opaque freeSecond : Nat → Bool

/-- FREE VALUE (R243, U2): `ev_symbol` of a command that faulted or found the block halted. -/
opaque freeSymbol : Nat → Symbol

/-- FREE VALUE (R243, U2): `ev_frame` of a command that faulted or found the block halted. -/
opaque freeFrame : Nat → Bool

end Config

end Sys2Proof
end

