-- ==== Sys2Proof/Syntax.lean ====
section
/-! DEFINITION. The commands: one constructor per row of `spec/opcode_table.json` (R80, R85), and the two ports
(R18). An operand stands as the bits of `arg` the format names (R81, R82). -/

namespace Sys2Proof

/-- The two ports: P the producer's, Q the consumer's (R18, R83). -/
inductive Port where
  | P
  | Q
deriving DecidableEq, Repr

/-- The ten commands. NOP alone is accepted on both ports and is answered differently on each (R120), so it
carries the port it was presented on; every other command's port is fixed (`Instr.port`). -/
inductive Instr where
  /-- NOP on the given port (R120) -/
  | nop (port : Port)
  /-- TICK `s`: take one sample (R121) -/
  | tick (s : Bool)
  /-- TICKC `c`: take the sample a character stands for (R131) -/
  | tickc (c : BitVec 8)
  /-- RDBIT `i`: read the raw window (R102) -/
  | rdbit (i : BitVec 12)
  /-- RDSYM `i`: read the symbol ring (R112) -/
  | rdsym (i : BitVec 12)
  /-- RDCNT `i`: read one bucket count (R191) -/
  | rdcnt (i : BitVec 12)
  /-- RDEDGE `i`: read one edge (R192) -/
  | rdedge (i : BitVec 12)
  /-- RDHH `i`: read one slot's health score (R193) -/
  | rdhh (i : BitVec 12)
  /-- RDREG `r`: read one register of the map of R195 (R194) -/
  | rdreg (r : BitVec 8)
  /-- FDEC `k`: query the frame decoder (R177) -/
  | fdec (k : BitVec 4)
deriving DecidableEq, Repr

/-- The port a command is for (R83). -/
def Instr.port : Instr → Port
  | .nop port => port
  | .tick _ => .P
  | .tickc _ => .P
  | .rdbit _ => .Q
  | .rdsym _ => .Q
  | .rdcnt _ => .Q
  | .rdedge _ => .Q
  | .rdhh _ => .Q
  | .rdreg _ => .Q
  | .fdec _ => .Q

/-- The nine fields of a calendar record (R41, R177, R195). -/
inductive RecField where
  | year | yday | hour | minute | second | ly | ls | dst | ut1
deriving DecidableEq, Repr

/-- The registers of the map of R195, by name. -/
inductive Reg where
  | seq | subsecPos | sos | tss | health | status | rawHead | symHead | frames | healthPct | phaseErr
  | record (f : RecField)
  | pSubsec | pSymbols | pHistory | pBuffer | pForceTss | pHealthPctThr | pRefBucket
deriving DecidableEq, Repr

end Sys2Proof
end

