-- ==== Sys2Proof/WellFormed.lean ====
section
/-! DEFINITION. Which commands are well formed: the operand values that have an encoding with a meaning (R81, R94).
An index is not checked here: an index at or above a capacity is a legal word that raises BoundsFault (R87, R94). -/

namespace Sys2Proof

/-- "assigned: 0x00-0x0A, 0x10-0x18, 0x20-0x26" (opcode table, R195). -/
def assignedRegister (r : BitVec 8) : Bool :=
  r ≤ 0x0A || (0x10 ≤ r && r ≤ 0x18) || (0x20 ≤ r && r ≤ 0x26)

/-- "FDEC with `k` in 10 to 15" is illegal (R94). -/
def assignedSelector (k : BitVec 4) : Bool := k ≤ 9

/-- A command whose operand has a meaning (R81, R94). -/
def Instr.wellFormed : Instr → Bool
  | .nop _ => true
  | .tick _ => true
  | .tickc _ => true
  | .rdbit _ => true
  | .rdsym _ => true
  | .rdcnt _ => true
  | .rdedge _ => true
  | .rdhh _ => true
  | .rdreg r => assignedRegister r
  | .fdec k => assignedSelector k

end Sys2Proof
end

