-- ==== Sys2Proof/Decode.lean ====
section
/-! DEFINITION. The decoder, total on every 16-bit word and either port (R87), and the encoder written from the
same tables (R80, R81, R85). -/

namespace Sys2Proof

/-- Why a word is no command of the port it arrives on, in the order R87 and R244 check. All raise
IllegalCommand (R242). -/
inductive DecodeError where
  /-- opcodes 0x3 to 0x7 and 0xF (R93) -/
  | reservedOpcode
  /-- a port Q opcode on port P, or a port P opcode on port Q (R93) -/
  | wrongPort
  /-- a must-be-zero bit of the format is set (R81, R93) -/
  | mustBeZero
  /-- an RDREG number outside the table of R195 (R94) -/
  | unassignedRegister
  /-- an FDEC selector of 10 to 15 (R94) -/
  | unassignedSelector
deriving DecidableEq, Repr

/-- What a word on a port is: exactly one command, or illegal (R87). -/
inductive Decoded where
  | command (i : Instr)
  | illegal (e : DecodeError)
deriving DecidableEq, Repr

/-- The assigned opcodes (R80). -/
inductive Opcode where
  | nop | tick | tickc | rdbit | rdsym | rdcnt | rdedge | rdhh | rdreg | fdec
deriving DecidableEq, Repr

/-- The opcode map of R80. -/
def Opcode.bits : Opcode → BitVec 4
  | .nop => 0x0
  | .tick => 0x1
  | .tickc => 0x2
  | .rdbit => 0x8
  | .rdsym => 0x9
  | .rdcnt => 0xA
  | .rdedge => 0xB
  | .rdhh => 0xC
  | .rdreg => 0xD
  | .fdec => 0xE

/-- The opcode map read the other way; `none` is a reserved opcode (R80, R93). -/
def Opcode.ofBits (b : BitVec 4) : Option Opcode :=
  match b.toNat with
  | 0x0 => some .nop
  | 0x1 => some .tick
  | 0x2 => some .tickc
  | 0x8 => some .rdbit
  | 0x9 => some .rdsym
  | 0xA => some .rdcnt
  | 0xB => some .rdedge
  | 0xC => some .rdhh
  | 0xD => some .rdreg
  | 0xE => some .fdec
  | _ => none

/-- Port rights: "Port P accepts NOP, TICK and TICKC. Port Q accepts NOP, RDBIT, …" (R83). -/
def Opcode.accepted : Opcode → Port → Bool
  | .nop, _ => true
  | .tick, .P => true
  | .tick, .Q => false
  | .tickc, .P => true
  | .tickc, .Q => false
  | _, .P => false
  | _, .Q => true

/-- `op = cmd[15:12]` (R80). -/
def opField (w : Cmd) : BitVec 4 := w.extractLsb' 12 4

/-- `arg = cmd[11:0]` (R80). -/
def argField (w : Cmd) : BitVec 12 := w.extractLsb' 0 12

/-- The number of a register in the map of R195. -/
def Reg.number : Reg → BitVec 8
  | .seq => 0x00
  | .subsecPos => 0x01
  | .sos => 0x02
  | .tss => 0x03
  | .health => 0x04
  | .status => 0x05
  | .rawHead => 0x06
  | .symHead => 0x07
  | .frames => 0x08
  | .healthPct => 0x09
  | .phaseErr => 0x0A
  | .record .year => 0x10
  | .record .yday => 0x11
  | .record .hour => 0x12
  | .record .minute => 0x13
  | .record .second => 0x14
  | .record .ly => 0x15
  | .record .ls => 0x16
  | .record .dst => 0x17
  | .record .ut1 => 0x18
  | .pSubsec => 0x20
  | .pSymbols => 0x21
  | .pHistory => 0x22
  | .pBuffer => 0x23
  | .pForceTss => 0x24
  | .pHealthPctThr => 0x25
  | .pRefBucket => 0x26

/-- The rows of the map of R195, in its order. -/
def Reg.all : List Reg :=
  [.seq, .subsecPos, .sos, .tss, .health, .status, .rawHead, .symHead, .frames, .healthPct, .phaseErr,
   .record .year, .record .yday, .record .hour, .record .minute, .record .second, .record .ly, .record .ls,
   .record .dst, .record .ut1,
   .pSubsec, .pSymbols, .pHistory, .pBuffer, .pForceTss, .pHealthPctThr, .pRefBucket]

/-- The register a number names; `none` is unassigned (R195). -/
def Reg.ofNumber (r : BitVec 8) : Option Reg := Reg.all.find? fun g => g.number == r

/-- What an FDEC selector asks for (R177). -/
inductive Selector where
  /-- selector 0, ERR: the result code -/
  | err
  /-- selectors 1 to 9: a field of the record -/
  | field (f : RecField)
deriving DecidableEq, Repr

/-- The selectors of R177; `none` for 10 to 15. -/
def Selector.ofBits (k : BitVec 4) : Option Selector :=
  match k.toNat with
  | 0 => some .err
  | 1 => some (.field .year)
  | 2 => some (.field .yday)
  | 3 => some (.field .hour)
  | 4 => some (.field .minute)
  | 5 => some (.field .second)
  | 6 => some (.field .ly)
  | 7 => some (.field .ls)
  | 8 => some (.field .dst)
  | 9 => some (.field .ut1)
  | _ => none

/-- The last three checks of R87 on the argument of an accepted opcode: must-be-zero bits, then the register
number or the selector. The index bound needs the capacity and is checked by the meaning. -/
def decodeArg (op : Opcode) (port : Port) (arg : BitVec 12) : Decoded :=
  match op with
  | .nop => if arg = 0 then .command (.nop port) else .illegal .mustBeZero
  | .tick => if arg.extractLsb' 1 11 = 0 then .command (.tick (arg.getLsbD 0)) else .illegal .mustBeZero
  | .tickc => if arg.extractLsb' 8 4 = 0 then .command (.tickc (arg.extractLsb' 0 8)) else .illegal .mustBeZero
  | .rdbit => .command (.rdbit arg)
  | .rdsym => .command (.rdsym arg)
  | .rdcnt => .command (.rdcnt arg)
  | .rdedge => .command (.rdedge arg)
  | .rdhh => .command (.rdhh arg)
  | .rdreg =>
    if arg.extractLsb' 8 4 = 0 then
      if (Reg.ofNumber (arg.extractLsb' 0 8)).isSome then .command (.rdreg (arg.extractLsb' 0 8))
      else .illegal .unassignedRegister
    else .illegal .mustBeZero
  | .fdec =>
    if arg.extractLsb' 4 8 = 0 then
      if (Selector.ofBits (arg.extractLsb' 0 4)).isSome then .command (.fdec (arg.extractLsb' 0 4))
      else .illegal .unassignedSelector
    else .illegal .mustBeZero

/-- "Decoding is total on any 16-bit word and any port" (R87), with the checks in the order of R244. -/
def decode (port : Port) (w : Cmd) : Decoded :=
  match Opcode.ofBits (opField w) with
  | none => .illegal .reservedOpcode
  | some op => if op.accepted port then decodeArg op port (argField w) else .illegal .wrongPort

/-- The opcode of a command (R80, R85). -/
def Instr.opcode : Instr → Opcode
  | .nop _ => .nop
  | .tick _ => .tick
  | .tickc _ => .tickc
  | .rdbit _ => .rdbit
  | .rdsym _ => .rdsym
  | .rdcnt _ => .rdcnt
  | .rdedge _ => .rdedge
  | .rdhh _ => .rdhh
  | .rdreg _ => .rdreg
  | .fdec _ => .fdec

/-- The argument of a command, by its format (R81). -/
def Instr.arg : Instr → BitVec 12
  | .nop _ => 0
  | .tick s => 0#11 ++ BitVec.ofBool s
  | .tickc c => 0#4 ++ c
  | .rdbit i => i
  | .rdsym i => i
  | .rdcnt i => i
  | .rdedge i => i
  | .rdhh i => i
  | .rdreg r => 0#4 ++ r
  | .fdec k => 0#8 ++ k

/-- The word of a command (R80, R85). -/
def encode (i : Instr) : Cmd := i.opcode.bits ++ i.arg

/-- The port whose right it is to present a word: P where P accepts it, else Q (R83). -/
def portOf (w : Cmd) : Port :=
  match decode .P w with
  | .command _ => .P
  | .illegal _ => .Q

/-- The command a word is on the port that accepts it. -/
def decodeWord (w : Cmd) : Option Instr :=
  match decode (portOf w) w with
  | .command i => some i
  | .illegal _ => none

/-- The 16-bit word whose bits `nbits - 1` to 0 are those of `w`, and 0 above (every command is 16 bits, R88). -/
def tableWord (nbits w : Nat) : Cmd := BitVec.ofNat 16 (w % 2 ^ min nbits 16)

/-- The command the decoder reads from a row's word as `spec/opcode_table.json` numbers its bits. -/
def decodeTableWord (nbits w : Nat) : Option Instr := decodeWord (tableWord nbits w)

/-- One row of the table of R85: "a word `w` is the command iff `w & mask == match`". -/
structure TableRow where
  pattern : Cmd
  mask : Cmd
deriving DecidableEq, Repr

/-- The rows of R85. -/
def Opcode.row : Opcode → TableRow
  | .nop => ⟨0x0000, 0xFFFF⟩
  | .tick => ⟨0x1000, 0xFFFE⟩
  | .tickc => ⟨0x2000, 0xFF00⟩
  | .rdbit => ⟨0x8000, 0xF000⟩
  | .rdsym => ⟨0x9000, 0xF000⟩
  | .rdcnt => ⟨0xA000, 0xF000⟩
  | .rdedge => ⟨0xB000, 0xF000⟩
  | .rdhh => ⟨0xC000, 0xF000⟩
  | .rdreg => ⟨0xD000, 0xFF00⟩
  | .fdec => ⟨0xE000, 0xFFF0⟩

/-- A word matches a row (R85). -/
def TableRow.fits (r : TableRow) (w : Cmd) : Bool := w &&& r.mask == r.pattern

end Sys2Proof
end

