-- ==== Sys2Proof/Machine/State.lean ====
section
/-! DEFINITION. The state of one decoder instance (R20) and what stands beside it in the model: the parameters,
the commands still to come, the outputs of the last step. -/

namespace Sys2Proof.Machine

/-- A Bit Ring Buffer: "`S.bits`, a vector of `cap` bits indexed by physical index `0 .. cap−1`, and `S.head`, the
physical index of the oldest retained bit" (R50). Its capacity is the length of `bits`. -/
structure Ring where
  bits : List Bool
  head : Nat
deriving DecidableEq, Repr

/-- A calendar record, the document's `wwvb_time` (R41): the record latch and the calendar engine's state (R210). -/
structure CalRecord where
  year : Nat
  yday : Nat
  hour : Nat
  minute : Nat
  second : Nat
  /-- leap-year flag -/
  ly : Nat
  /-- leap-second-pending flag -/
  ls : Nat
  /-- DST state (R74) -/
  dst : Nat
  /-- UT1 offset, in tenths of a second (R75) -/
  ut1 : Int
deriving DecidableEq, Repr

/-- Why a frame was rejected (R170). -/
inductive FrameError where
  /-- 1: "a Mark missing at a Mark position or present elsewhere" -/
  | marks
  /-- 2: "a must-be-zero position not 0" -/
  | zeros
  /-- 3: "an Invalid symbol in the window" -/
  | invalid
  /-- 4: "a digit group above 9" -/
  | digit
  /-- 5: "a sign code other than 5 or 2" -/
  | sign
deriving DecidableEq, Repr

/-- The fault causes that are ever written (R240); code 3 is "(never written)". -/
inductive FaultCause where
  /-- 0: none -/
  | none
  /-- 1: BoundsFault (R241) -/
  | bounds
  /-- 2: IllegalCommand (R242) -/
  | illegal
deriving DecidableEq, Repr

/-- The state of one instance, exactly the list of R20. `rec` of the spec is `record` here. -/
structure Block where
  /-- the raw sample ring (R21) -/
  raw : Ring
  /-- the bit ring that carries the symbol ring (R22) -/
  sring : Ring
  /-- reduced-carrier samples per bucket (R26) -/
  counts : List Nat
  /-- edge per bucket, state of its own (R28, R29) -/
  edges : List Int
  /-- score of each physical symbol slot (R33) -/
  healthHistory : List Nat
  /-- the bucket of the next sample (R25) -/
  subsec : Nat
  /-- start-of-second bucket (R30) -/
  sos : Nat
  /-- ticks since the last boundary (R31) -/
  tss : Nat
  /-- running total of `healthHistory` (R34) -/
  health : Nat
  /-- sample counter (R38) -/
  seq : BitVec 32
  /-- the last sample-taking step declared a boundary (R39) -/
  newSecond : Bool
  /-- the symbol of the most recent boundary (R40) -/
  lastSym : Symbol
  /-- the record latch `rec` (R41) -/
  record : CalRecord
  /-- a decode has succeeded since reset (R42) -/
  recValid : Bool
  /-- outcome of the latest decode attempt inside a TICK; `none` is code 0 (R42) -/
  ferr : Option FrameError
  /-- successful decodes (R43) -/
  frames : BitVec 32
  /-- halted (R44) -/
  fault : Bool
  /-- the first cause (R44) -/
  faultCause : FaultCause
deriving DecidableEq, Repr

/-- What the outside presents in one clock: the reset input (R270) and at most one word on each port (R18, R58). -/
structure Clock where
  reset : Bool
  p : Option Cmd
  q : Option Cmd
deriving DecidableEq, Repr

/-- What a step put on the output ports (R84, R250). -/
inductive Response where
  /-- no command was performed -/
  | idle
  /-- a port P command: `ev_second`, `ev_symbol`, `ev_frame`, `p_fault` (R250) -/
  | onP (evSecond : Bool) (evSymbol : Symbol) (evFrame : Bool) (pFault : Bool)
  /-- a port Q command: `q_data`, `q_fault` (R84) -/
  | onQ (qData : Word) (qFault : Bool)
deriving DecidableEq, Repr

/-- The machine: one block and, as the model's own fields, its parameters, the clocks still to come, the outputs of
the last step and the counter that indexes the free values. -/
structure State where
  /-- the construction parameters; no step writes them (R9, R19) -/
  cfg : Params
  /-- the state of R20 -/
  block : Block
  /-- the clocks still to come, the next one first -/
  inputs : List Clock
  /-- what the last step put on the output ports -/
  out : Response
  /-- unspecified answers given so far -/
  freeCtr : Nat
deriving DecidableEq, Repr

/-- The reasons the model stops with a fault: there is none. The block's own two faults, BoundsFault and
IllegalCommand, are entered as next states (R243), and no other behaviour of the spec stops it. Safe. -/
inductive Fault where
deriving DecidableEq, Repr

/-- The reasons the model refuses an instruction. -/
inductive Refusal where
  /-- Raised by an arm of `exec` whose instruction has no meaning yet; no arm of this model is left so. Safe. -/
  | notModelled (mnemonic : String)
deriving DecidableEq, Repr

/-- A ring of the given capacity filled with 0, its head at 0 (R48). -/
def Ring.zeros (cap : Nat) : Ring := ⟨List.replicate cap false, 0⟩

/-- The record whose fields are all 0 (R48). -/
def CalRecord.zero : CalRecord := ⟨0, 0, 0, 0, 0, 0, 0, 0, 0⟩

/-- "After reset every piece of state of rule R20 is zero" (R48), for the given parameters. -/
def Block.reset (p : Params) : Block where
  raw := Ring.zeros p.buffer
  sring := Ring.zeros (2 * p.symbols)
  counts := List.replicate p.subsec 0
  edges := List.replicate p.subsec 0
  healthHistory := List.replicate p.symbols 0
  subsec := 0
  sos := 0
  tss := 0
  health := 0
  seq := 0
  newSecond := false
  lastSym := 0
  record := CalRecord.zero
  recValid := false
  ferr := none
  frames := 0
  fault := false
  faultCause := .none

/-- An instance with the given parameters right after reset, with nothing presented yet. -/
def State.resetOf (p : Params) : State where
  cfg := p
  block := Block.reset p
  inputs := []
  out := .idle
  freeCtr := 0

/-- The machine right after reset (R48, R270), with the default parameters (R6 to R10). -/
def State.reset : State := State.resetOf Params.default

end Sys2Proof.Machine
end

