-- ==== Sys2Proof/Machine/Ops.lean ====
section
/-! DEFINITION. The shared operations: the rings (R50, R100, R101, R110, R111), the answer of a command (R84, R250),
fault entry and the halted state (R243), and what the ports present next (R57, R58, R270). -/

namespace Sys2Proof.Machine

/-- What a step answers with. -/
abbrev Result := Host.Outcome State Fault Refusal

/-! ## The rings -/

/-- The number of bits a ring holds (R50). -/
def Ring.cap (r : Ring) : Nat := r.bits.length

/-- `MemRead(S, a, 1)`: the bit at physical position `a mod cap` (R13). -/
def Ring.readBit (r : Ring) (a : Nat) : Bool := r.bits.getD (a % r.cap) false

/-- `MemRead(S, a, n)`: "the `n` bits `S.bits[a mod cap], S.bits[(a+1) mod cap], ...` as an n-bit value whose most
significant bit is the one at `a`" (R13). -/
def Ring.memRead (r : Ring) (a : Nat) : (n : Nat) → BitVec n
  | 0 => BitVec.nil
  | n + 1 => (r.memRead a n).concat (r.readBit (a + n))

/-- `MemWrite(S, a, 1, b)` (R13). -/
def Ring.writeBit (r : Ring) (a : Nat) (b : Bool) : Ring := { r with bits := r.bits.set (a % r.cap) b }

/-- BPUT: "inserts one sample, returns the value that fell out of the window" (R100). -/
def Ring.bput (r : Ring) (b : Bool) : Bool × Ring :=
  (r.readBit r.head, { r.writeBit r.head b with head := (r.head + 1) % r.cap })

/-- BAT: the bit at a logical index; `none` is BoundsFault (R101). -/
def Ring.bat (r : Ring) (i : Nat) : Option Bool :=
  if i < r.cap then some (r.readBit (r.head + i)) else none

/-- BAT at an index the block forms itself, "in range by construction" (R53). -/
def Ring.sample (r : Ring) (i : Nat) : Bool := (r.bat i).getD false

/-- SPUT: the two bits of a symbol are put most significant first; returns the evicted symbol (R110). -/
def Ring.sput (r : Ring) (v : Symbol) : Symbol × Ring :=
  let first := r.bput (v.getLsbD 1)
  let second := first.2.bput (v.getLsbD 0)
  (BitVec.ofBool first.1 ++ BitVec.ofBool second.1, second.2)

/-- SAT: the symbol at a logical symbol index; `none` is BoundsFault, checked "on the symbol index, before any bit
index is formed" (R111). -/
def Ring.sat (r : Ring) (i : Nat) : Option Symbol :=
  if i < r.cap / 2 then
    some (BitVec.ofBool (r.sample (2 * i)) ++ BitVec.ofBool (r.sample (2 * i + 1)))
  else none

/-- SAT at an index the block forms itself (R53). -/
def Ring.symbolAt (r : Ring) (i : Nat) : Symbol := (r.sat i).getD 0

/-- `hpos`, the physical slot the next symbol overwrites (R35). -/
def Ring.slot (r : Ring) : Nat := r.head / 2

/-! ## Storage -/

/-- The storage has the fixed lengths the parameters give and both heads are in range (R20, R50, R65): the form
every operation keeps. -/
abbrev Memory.wf (p : Params) (b : Block) : Prop :=
  b.raw.bits.length = p.buffer ∧ b.raw.head < p.buffer ∧
  b.sring.bits.length = 2 * p.symbols ∧ b.sring.head < 2 * p.symbols ∧
  b.counts.length = p.subsec ∧ b.edges.length = p.subsec ∧ b.healthHistory.length = p.symbols

/-! ## Answering a command, faults and the halted state -/

/-- Put a response on the output ports. -/
def State.respond (s : State) (r : Response) : State := { s with out := r }

/-- Complete a port Q command with a value: `q_fault = 0` (R84). -/
def State.answer (s : State) (v : Word) : State := s.respond (.onQ v false)

/-- The fault indication on a port; everything else on it is unspecified, so free (R84, R243, U2). -/
def faultResponse (port : Port) (k : Nat) : Response :=
  match port with
  | .P => .onP (Config.freeSecond k) (Config.freeSymbol k) (Config.freeFrame k) true
  | .Q => .onQ (Config.freeData k) true

/-- Answer a command with the fault indication (R243). -/
def State.indicateFault (s : State) (port : Port) : State :=
  { s with out := faultResponse port s.freeCtr, freeCtr := s.freeCtr + 1 }

/-- Fault entry: "writes `fault <- 1` and `fault_cause <- code` and nothing else", and the command returns the fault
indication (R243). -/
def State.takeFault (s : State) (port : Port) (cause : FaultCause) : State :=
  { s with block := { s.block with fault := true, faultCause := cause } }.indicateFault port

/-- Perform a command on a port. On a halted block "every command on either port, NOP included, changes no state and
is answered with the fault indication" (R243). -/
def perform (port : Port) (s : State) (run : State → State) : Result :=
  .next (if s.block.fault then s.indicateFault port else run s)

/-- A word that is no command of the port it arrives on: IllegalCommand (R242). -/
def execIllegal (port : Port) (s : State) : Result := perform port s fun s => s.takeFault port .illegal

/-! ## What the ports present -/

/-- What the block is presented with next. -/
inductive Presented where
  /-- no command: the ports are idle in this clock, or nothing is left to present -/
  | nothing (s : State)
  /-- the reset input is asserted (R270) -/
  | resetting (s : State)
  /-- a word on a port -/
  | word (port : Port) (w : Cmd) (s : State)
deriving DecidableEq, Repr

/-- Take what is presented next out of the inputs. "When both ports present a command in the same clock, the P
command's step comes first" (R58); "while it is asserted no command is accepted on either port" (R270). -/
def State.present (s : State) : Presented :=
  match s.inputs with
  | [] => .nothing s
  | ⟨true, _, _⟩ :: rest => .resetting { s with inputs := rest }
  | ⟨false, some w, none⟩ :: rest => .word .P w { s with inputs := rest }
  | ⟨false, some w, some v⟩ :: rest => .word .P w { s with inputs := ⟨false, none, some v⟩ :: rest }
  | ⟨false, none, some w⟩ :: rest => .word .Q w { s with inputs := rest }
  | ⟨false, none, none⟩ :: rest => .nothing { s with inputs := rest }

/-- No command was performed: the event outputs hold for their own step only (R250). -/
def State.idle (s : State) : State := s.respond .idle

/-- Reset: the all-zero state, whatever the state was (R270). -/
def State.resetBlock (s : State) : State := { s with block := Block.reset s.cfg, out := .idle }

/-- One clock that presents one word on one port and nothing else. -/
def Clock.single (port : Port) (w : Cmd) : Clock :=
  match port with
  | .P => ⟨false, some w, none⟩
  | .Q => ⟨false, none, some w⟩

end Sys2Proof.Machine
end

