-- ==== Sys2Proof/Machine/Operands.lean ====
section
/-! DEFINITION. Operands and responses: the extensions of R84, and the index operand with its bound (R53, R82, R241). -/

namespace Sys2Proof.Machine

/-- `zext_32(v)` (R12, R84). -/
def zext (v : Nat) : Word := BitVec.ofNat 32 v

/-- `sext_32(v)`: two's complement (R12, R84). -/
def sext (v : Int) : Word := BitVec.ofInt 32 v

/-- An element of an array addressed by an index operand; `none` is BoundsFault (R53). -/
def indexed (cap : Nat) (i : BitVec 12) (value : Nat → Word) : Option Word :=
  if i.toNat < cap then some (value i.toNat) else none

/-- Answer a format I command: with the element, or with BoundsFault when the index is out of range (R241). -/
def State.answerIndexed (s : State) (v : Option Word) : State :=
  match v with
  | some v => s.answer v
  | none => s.takeFault .Q .bounds

end Sys2Proof.Machine
end

