-- ==== Sys2Proof/Machine/Flags.lean ====
section
/-! DEFINITION. Every flag and derived output: the boundary decision (R126), `health_pct`, `health_ok`, `phase_err`,
the STATUS word (R92, R196 to R199), the error and cause codes (R170, R240) and the pins (R253). -/

namespace Sys2Proof.Machine

/-- Step 6 of TICK, on the entry value of `tss`, the advanced `subsec`, the new `sos` and the `sos` on entry (R126). -/
def declares (p : Params) (tss subsec sos prevSos : Nat) : Bool :=
  if p.forceTss < tss then true
  else if p.subsec < 2 * tss then subsec == sos || subsec == prevSos
  else false

/-- `health_pct = (100 × health) div (SYMBOLS × SUBSEC)` (R197). -/
def healthPct (p : Params) (health : Nat) : Nat := 100 * health / (p.symbols * p.subsec)

/-- `health_ok = 1` iff `100 × health ≥ HEALTH_PCT_THR × SYMBOLS × SUBSEC` (R198). -/
def healthOk (p : Params) (health : Nat) : Bool :=
  p.healthPctThr * p.symbols * p.subsec ≤ 100 * health

/-- `phase_err = ((sos − REF_BUCKET + H) mod SUBSEC) − H` with `H = SUBSEC div 2` (R199). -/
def phaseErr (p : Params) (sos : Nat) : Int :=
  ((sos : Int) - (p.refBucket : Int) + ((p.subsec / 2 : Nat) : Int)) % (p.subsec : Int) - ((p.subsec / 2 : Nat) : Int)

/-- The code of a frame error (R170). -/
def FrameError.code : FrameError → BitVec 3
  | .marks => 1
  | .zeros => 2
  | .invalid => 3
  | .digit => 4
  | .sign => 5

/-- The value of `ferr`: 0 for success (R42, R170). -/
def ferrCode : Option FrameError → BitVec 3
  | none => 0
  | some e => e.code

/-- The value of `fault_cause` (R240). -/
def FaultCause.code : FaultCause → BitVec 2
  | .none => 0
  | .bounds => 1
  | .illegal => 2

/-- STATUS: `zext_32(ferr ++ last_sym ++ health_ok ++ rec_valid ++ new_second)` (R92, R196). -/
def statusWord (p : Params) (b : Block) : Word :=
  (ferrCode b.ferr ++ b.lastSym ++ BitVec.ofBool (healthOk p b.health) ++ BitVec.ofBool b.recValid ++
    BitVec.ofBool b.newSecond).setWidth 32

/-- The continuous outputs (R253). -/
structure Pins where
  sos : Nat
  health : Nat
  healthPct : Nat
  healthOk : Bool
  phaseErr : Int
  fault : Bool
  faultCause : BitVec 2
deriving DecidableEq, Repr

/-- "Each equals the named state or function of state at every instant between steps" (R253). -/
def State.pins (s : State) : Pins where
  sos := s.block.sos
  health := s.block.health
  healthPct := Machine.healthPct s.cfg s.block.health
  healthOk := Machine.healthOk s.cfg s.block.health
  phaseErr := Machine.phaseErr s.cfg s.block.sos
  fault := s.block.fault
  faultCause := s.block.faultCause.code

end Sys2Proof.Machine
end

