-- ==== Sys2Proof/Machine/Classifier.lean ====
section
/-! DEFINITION. The Symbol Classifier, CLASSIFY (R140 to R147). -/

namespace Sys2Proof.Machine

/-- `round(ms · SUBSEC / 1000)`, half up: `(ms × SUBSEC + 500) div 1000` (R140). -/
def bucketOf (ms subsec : Nat) : Nat := (ms * subsec + 500) / 1000

/-- `P1`, the end of interval A (R11, R140). -/
def boundA (p : Params) : Nat := bucketOf 200 p.subsec

/-- `P2`, the end of interval B (R11, R140). -/
def boundB (p : Params) : Nat := bucketOf 500 p.subsec

/-- `P3`, the end of interval C (R11, R140). -/
def boundC (p : Params) : Nat := bucketOf 800 p.subsec

/-- The number of `k` in `[lo, hi)` whose sample in the second just completed is reduced: "offset `k` of the second
… is the sample `BAT(raw, BUFFER − SUBSEC + k)`" (R141, R142). -/
def reducedIn (p : Params) (raw : Ring) (lo hi : Nat) : Nat :=
  (List.range' lo (hi - lo)).countP fun k => raw.sample (p.buffer - p.subsec + k)

/-- The decision on the counts of intervals B and C and their lengths (R144). -/
def decideSymbol (lb lc countB countC : Nat) : Symbol :=
  if lc < 2 * countC then
    if lb < 2 * countB then symMark else symInvalid
  else if lb < 2 * countB then symOne
  else symZero

/-- One interval's score: "`count` if expected-reduced else `(length − count)`" (R146). -/
def intervalScore (expectReduced : Bool) (length count : Nat) : Nat :=
  if expectReduced then count else length - count

/-- The slot score: the sum over the four intervals, with the expected states of the table of R146; 0 for Invalid. -/
def slotScore (p : Params) (sym : Symbol) (countA countB countC countD : Nat) : Nat :=
  if sym = symInvalid then 0
  else
    intervalScore true (boundA p) countA +
    intervalScore (sym == symOne || sym == symMark) (boundB p - boundA p) countB +
    intervalScore (sym == symMark) (boundC p - boundB p) countC +
    intervalScore false (p.subsec - boundC p) countD

/-- What CLASSIFY returns (R142). -/
structure Classified where
  sym : Symbol
  score : Nat
deriving DecidableEq, Repr

/-- CLASSIFY, the document's `decode_symbol` (R142). It writes no state. -/
def classify (p : Params) (raw : Ring) : Classified :=
  let countA := reducedIn p raw 0 (boundA p)
  let countB := reducedIn p raw (boundA p) (boundB p)
  let countC := reducedIn p raw (boundB p) (boundC p)
  let countD := reducedIn p raw (boundC p) p.subsec
  let sym := decideSymbol (boundB p - boundA p) (boundC p - boundB p) countB countC
  ⟨sym, slotScore p sym countA countB countC countD⟩

end Sys2Proof.Machine
end

