-- ==== Sys2Proof/Machine/Validator.lean ====
section
/-! DEFINITION. The Frame Validator and BCD Decoder, FDECODE (R160 to R174). -/

namespace Sys2Proof.Machine

/-! ## The frame layout -/

/-- "an explicit ordered list of (symbol-position, bit-weight) groups per field" (R166), with the positions
and weights of the table of R78. -/
def layout : Config.Group → List (Nat × Nat)
  | .minTens => [(1, 4), (2, 2), (3, 1)]
  | .minUnits => [(5, 8), (6, 4), (7, 2), (8, 1)]
  | .hourTens => [(12, 2), (13, 1)]
  | .hourUnits => [(15, 8), (16, 4), (17, 2), (18, 1)]
  | .dayHundreds => [(22, 2), (23, 1)]
  | .dayTens => [(25, 8), (26, 4), (27, 2), (28, 1)]
  | .dayUnits => [(30, 8), (31, 4), (32, 2), (33, 1)]
  | .ut1Mag => [(40, 8), (41, 4), (42, 2), (43, 1)]
  | .yearTens => [(45, 8), (46, 4), (47, 2), (48, 1)]
  | .yearUnits => [(50, 8), (51, 4), (52, 2), (53, 1)]
  | .ut1Sign => [(36, 4), (37, 2), (38, 1)]
  | .leapYear => [(55, 1)]
  | .leapSecond => [(56, 1)]
  | .dst => [(57, 2), (58, 1)]

/-- The groups subject to the "above 9" test, in the order of R161. -/
def digitGroups : List Config.Group :=
  [.minTens, .minUnits, .hourTens, .hourUnits, .dayHundreds, .dayTens, .dayUnits, .ut1Mag, .yearTens,
   .yearUnits]

/-- "position 0 and every position ≡9 (mod 10) must be Mark" (R77). -/
def isMarkPosition (pos : Nat) : Bool := pos == 0 || pos % 10 == 9

/-- The must-be-zero set of R77. -/
def zeroPositions : List Nat := [4, 10, 11, 14, 20, 21, 24, 34, 35, 44, 54]

/-! ## The decode -/

/-- What FDECODE returns: a result code and, "only when `err = 0`", a record (R161, R174). -/
inductive FrameResult where
  | rejected (e : FrameError)
  | decoded (r : CalRecord)
deriving DecidableEq, Repr

/-- The window: position `pos` is `SAT(SYMBOLS − 60 + pos)` (R160). -/
def frameWindow (p : Params) (sring : Ring) : List Symbol :=
  (List.range 60).map fun pos => sring.symbolAt (p.symbols - 60 + pos)

/-- The symbol at a frame position. -/
def symAt (w : List Symbol) (pos : Nat) : Symbol := w.getD pos 0

/-- The marker check (R163). -/
def marksRight (w : List Symbol) : Bool :=
  (List.range 60).all fun pos => (symAt w pos == symMark) == isMarkPosition pos

/-- The zero check (R164). -/
def zerosRight (w : List Symbol) : Bool := zeroPositions.all fun pos => symAt w pos == symZero

/-- An Invalid symbol stands somewhere in the window (R165). -/
def hasInvalid (w : List Symbol) : Bool := (List.range 60).any fun pos => symAt w pos == symInvalid

/-- "a weighted sum of symbol values" over a list of (position, weight) (R76, R166). -/
def weightedSum (w : List Symbol) (group : List (Nat × Nat)) : Nat :=
  (group.map fun pw => pw.2 * (symAt w pw.1).toNat).sum

/-- The value of a group of the frame layout (R166). -/
def groupValue (w : List Symbol) (g : Config.Group) : Nat := weightedSum w (layout g)

/-- "any single BCD digit group summing above 9 flags a decode error for the whole minute" (R167). -/
def digitOverflow (w : List Symbol) : Bool := digitGroups.any fun g => 9 < groupValue w g

/-- The UT1 offset: sign code 5 positive, 2 negative, any other a decode error (R75, R168). -/
def ut1Offset (w : List Symbol) : Option Int :=
  if groupValue w .ut1Sign = 5 then some (groupValue w .ut1Mag : Int)
  else if groupValue w .ut1Sign = 2 then some (-(groupValue w .ut1Mag : Int))
  else none

/-- The record of a window that passed every check (R161, R169). -/
def buildRecord (w : List Symbol) (ut1 : Int) : CalRecord where
  year := 10 * groupValue w .yearTens + groupValue w .yearUnits
  yday := 100 * groupValue w .dayHundreds + 10 * groupValue w .dayTens + groupValue w .dayUnits
  hour := 10 * groupValue w .hourTens + groupValue w .hourUnits
  minute := 10 * groupValue w .minTens + groupValue w .minUnits
  second := 0
  ly := groupValue w .leapYear
  ls := groupValue w .leapSecond
  dst := groupValue w .dst
  ut1 := ut1

/-- The decode of a window of 60 symbols, the checks in the order of R161 and R170. -/
def decodeWindow (policy : InvalidPolicy) (w : List Symbol) : FrameResult :=
  if !marksRight w then .rejected .marks
  else if !zerosRight w then .rejected .zeros
  else if policy == .reject && hasInvalid w then .rejected .invalid
  else if digitOverflow w then .rejected .digit
  else
    match ut1Offset w with
    | none => .rejected .sign
    | some ut1 => .decoded (buildRecord w ut1)

/-- FDECODE: the decode of the 60 newest symbols (R161). It writes no state. -/
def fdecode (p : Params) (sring : Ring) : FrameResult := decodeWindow p.invalidPolicy (frameWindow p sring)

end Sys2Proof.Machine
end

