-- ==== Sys2Proof/Machine/Tracker.lean ====
section
/-! DEFINITION. The Phase Tracker's one operation, the seven steps of TICK on the block (R121 to R129, R147, R175,
R176). -/

namespace Sys2Proof.Machine

/-- The events a port P step puts out (R250). -/
structure Events where
  second : Bool
  symbol : Symbol
  frame : Bool
deriving DecidableEq, Repr

/-- Step 2: "+1 if a sample turned on (new=1,evicted=0), −1 if it turned off (new=0,evicted=1); unchanged
otherwise" (R122). -/
def adjustCount (sample evicted : Bool) (c : Nat) : Nat :=
  if sample && !evicted then c + 1 else if !sample && evicted then c - 1 else c

/-- Steps 1 and 2: the counts after the sample is inserted; the bucket is the entry value of `subsec` (R122). -/
def nextCounts (sample : Bool) (b : Block) : List Nat :=
  b.counts.set b.subsec (adjustCount sample (b.raw.bput sample).1 (b.counts.getD b.subsec 0))

/-- `counts[i+1 mod SUBSEC] − counts[i]` (R123). -/
def edgeAt (p : Params) (counts : List Nat) (i : Nat) : Int :=
  (counts.getD ((i + 1) % p.subsec) 0 : Int) - (counts.getD i 0 : Int)

/-- Step 3: "Recompute `edges[subsec]`" from the updated counts, and no other element (R123). -/
def nextEdges (p : Params) (sample : Bool) (b : Block) : List Int :=
  b.edges.set b.subsec (edgeAt p (nextCounts sample b) b.subsec)

/-- Scan in ascending index: an element replaces the running maximum only if strictly greater (R124). -/
def scanFrom (bestI : Nat) (bestV : Int) (i : Nat) : List Int → Nat
  | [] => bestI
  | e :: es => if bestV < e then scanFrom i e (i + 1) es else scanFrom bestI bestV (i + 1) es

/-- "the least index of the greatest element whatever its sign" (R124). -/
def leastArgmax : List Int → Nat
  | [] => 0
  | e :: es => scanFrom 0 e 1 es

/-- Step 4: the new `sos`, under the reading `SOS_SCAN` of the case that no edge is positive (R124, D6, U3). -/
def nextSos (p : Params) (edges : List Int) (sos : Nat) : Nat :=
  match p.sosScan with
  | .argmax => (leastArgmax edges + 1) % p.subsec
  | .zeroInit => (scanFrom 0 0 0 edges + 1) % p.subsec
  | .hold => if edges.any (0 < ·) then (leastArgmax edges + 1) % p.subsec else sos

/-- Steps 1 to 5 and the sample counter (R122 to R125, R129). -/
def track (p : Params) (sample : Bool) (b : Block) : Block :=
  { b with
    raw := (b.raw.bput sample).2
    counts := nextCounts sample b
    edges := nextEdges p sample b
    sos := nextSos p (nextEdges p sample b) b.sos
    subsec := (b.subsec + 1) % p.subsec
    seq := b.seq + 1 }

/-- Step 6 on the block that steps 1 to 5 left, with the `sos` of entry (R126). -/
def boundaryOf (p : Params) (prevSos : Nat) (b : Block) : Bool := declares p b.tss b.subsec b.sos prevSos

/-- Step 7 without a boundary: "Otherwise increment `tss`" (R127, R129). -/
def passSecond (b : Block) : Block := { b with tss := b.tss + 1, newSecond := false }

/-- Step 7 on a boundary, up to the symbol latch: classify, push, update the rolling total on the slot the head named
before the push (R127, R128, R147, R40). -/
def closeSecond (p : Params) (b : Block) : Block :=
  { b with
    tss := 0
    newSecond := true
    sring := (b.sring.sput (classify p b.raw).sym).2
    health := b.health + (classify p b.raw).score - b.healthHistory.getD b.sring.slot 0
    healthHistory := b.healthHistory.set b.sring.slot (classify p b.raw).score
    lastSym := (classify p b.raw).sym }

/-- Latch the outcome of a decode attempt made inside a TICK: on success the record, `rec_valid`, `frames` and
`ferr = 0`; on failure `ferr` and nothing else (R175, R176). -/
def latchFrame (res : FrameResult) (b : Block) : Block :=
  match res with
  | .decoded r => { b with ferr := none, record := r, recValid := true, frames := b.frames + 1 }
  | .rejected e => { b with ferr := some e }

/-- `ev_frame` of a decode attempt (R250). -/
def frameLatched : FrameResult → Bool
  | .decoded _ => true
  | .rejected _ => false

/-- The rest of a boundary: when the symbol pushed is a Mark, the decode attempt, "after the push" (R162). -/
def attemptFrame (p : Params) (b : Block) : Block × Events :=
  if b.lastSym = symMark then
    (latchFrame (fdecode p b.sring) b, ⟨true, b.lastSym, frameLatched (fdecode p b.sring)⟩)
  else (b, ⟨true, b.lastSym, false⟩)

/-- TICK `s` on the block, as one atomic step (R121): the block after it and the events it puts out. -/
def tick (p : Params) (sample : Bool) (b : Block) : Block × Events :=
  if boundaryOf p b.sos (track p sample b) then attemptFrame p (closeSecond p (track p sample b))
  else (passSecond (track p sample b), ⟨false, b.lastSym, false⟩)

/-- A run of TICKs, the oldest sample first. -/
def tickAll (p : Params) (samples : List Bool) (b : Block) : Block :=
  samples.foldl (fun b sample => (tick p sample b).1) b

end Sys2Proof.Machine
end

