-- ==== Sys2Proof/Machine/Consumer.lean ====
section
/-! DEFINITION. The commands of port Q: RDBIT (R102), RDSYM (R112), RDCNT, RDEDGE, RDHH (R191 to R193), RDREG (R194,
R195), FDEC (R177). Each is a pure read unless it faults (R190). -/

namespace Sys2Proof.Machine

/-- A field of a record as a response word: `ut1` sign-extended, the others zero-extended (R177, R195). -/
def CalRecord.word (r : CalRecord) : RecField → Word
  | .year => zext r.year
  | .yday => zext r.yday
  | .hour => zext r.hour
  | .minute => zext r.minute
  | .second => zext r.second
  | .ly => zext r.ly
  | .ls => zext r.ls
  | .dst => zext r.dst
  | .ut1 => sext r.ut1

/-- The value of a register of the map of R195. -/
def registerValue (p : Params) (b : Block) : Reg → Word
  | .seq => b.seq
  | .subsecPos => zext b.subsec
  | .sos => zext b.sos
  | .tss => zext b.tss
  | .health => zext b.health
  | .status => statusWord p b
  | .rawHead => zext b.raw.head
  | .symHead => zext b.sring.slot
  | .frames => b.frames
  | .healthPct => zext (healthPct p b.health)
  | .phaseErr => sext (phaseErr p b.sos)
  | .record f => b.record.word f
  | .pSubsec => zext p.subsec
  | .pSymbols => zext p.symbols
  | .pHistory => zext p.history
  | .pBuffer => zext p.buffer
  | .pForceTss => zext p.forceTss
  | .pHealthPctThr => zext p.healthPctThr
  | .pRefBucket => zext p.refBucket

/-- The code FDECODE returns, 0 for success (R161, R170). -/
def FrameResult.code : FrameResult → BitVec 3
  | .rejected e => e.code
  | .decoded _ => 0

/-- What FDEC answers for a selector: the code, or a field of the record, 0 when the decode failed (R177). -/
def FrameResult.select (res : FrameResult) : Selector → Word
  | .err => res.code.setWidth 32
  | .field f =>
    match res with
    | .rejected _ => 0
    | .decoded r => r.word f

/-- RDBIT `i`: `q_data <- zext_32(BAT(raw, i))` (R102). -/
def execRdbit (i : BitVec 12) (s : State) : Result :=
  perform .Q s fun s => s.answerIndexed ((s.block.raw.bat i.toNat).map fun b => zext b.toNat)

/-- RDSYM `i`: `q_data <- zext_32(SAT(i))` (R112). -/
def execRdsym (i : BitVec 12) (s : State) : Result :=
  perform .Q s fun s => s.answerIndexed ((s.block.sring.sat i.toNat).map fun v => v.setWidth 32)

/-- RDCNT `i`: `q_data <- zext_32(counts[i])` (R191). -/
def execRdcnt (i : BitVec 12) (s : State) : Result :=
  perform .Q s fun s => s.answerIndexed (indexed s.cfg.subsec i fun k => zext (s.block.counts.getD k 0))

/-- RDEDGE `i`: `q_data <- sext_32(edges[i])`, the stored element (R192). -/
def execRdedge (i : BitVec 12) (s : State) : Result :=
  perform .Q s fun s => s.answerIndexed (indexed s.cfg.subsec i fun k => sext (s.block.edges.getD k 0))

/-- RDHH `i`: `q_data <- zext_32(health_history[i])`, a physical slot (R193). -/
def execRdhh (i : BitVec 12) (s : State) : Result :=
  perform .Q s fun s => s.answerIndexed (indexed s.cfg.symbols i fun k => zext (s.block.healthHistory.getD k 0))

/-- RDREG `r`: the value the map gives, IllegalCommand for an unassigned number (R194). -/
def execRdreg (r : BitVec 8) (s : State) : Result :=
  perform .Q s fun s =>
    match Reg.ofNumber r with
    | some g => s.answer (registerValue s.cfg s.block g)
    | none => s.takeFault .Q .illegal

/-- FDEC `k`: the frame decoder on the window as it is now, IllegalCommand for a selector above 9 (R177). -/
def execFdec (k : BitVec 4) (s : State) : Result :=
  perform .Q s fun s =>
    match Selector.ofBits k with
    | some sel => s.answer ((fdecode s.cfg s.block.sring).select sel)
    | none => s.takeFault .Q .illegal

end Sys2Proof.Machine
end

