-- ==== Sys2Proof/Machine/Producer.lean ====
section
/-! DEFINITION. The commands of port P, and NOP of both ports: NOP (R120), TICK (R121), TICKC (R131). -/

namespace Sys2Proof.Machine

/-- The events of a port P step that takes no sample: `ev_second = ev_frame = 0`, `ev_symbol` the value of
`last_sym` (R250). -/
def State.noEvents (s : State) : State := s.respond (.onP false s.block.lastSym false false)

/-- The effect of a sample-taking command: the TICK step and its events (R121, R250). -/
def State.takeSample (s : State) (sample : Bool) : State :=
  { s with block := (tick s.cfg sample s.block).1 }.respond
    (.onP (tick s.cfg sample s.block).2.second (tick s.cfg sample s.block).2.symbol
      (tick s.cfg sample s.block).2.frame false)

/-- The sample a character of the text fixture stands for: `_` = 0x5F reduced carrier, `#` = 0x23 full carrier,
"all other characters ignored" (R79, R131). -/
def sampleOf (c : BitVec 8) : Option Bool :=
  if c = 0x5F then some true else if c = 0x23 then some false else none

/-- NOP: `q_data <- 0` on port Q, no events on port P; "No state is read or written" (R120). -/
def execNop (port : Port) (s : State) : Result :=
  perform port s fun s =>
    match port with
    | .P => s.noEvents
    | .Q => s.answer 0

/-- TICK `s` (R121). -/
def execTick (sample : Bool) (s : State) : Result := perform .P s fun s => s.takeSample sample

/-- TICKC `c`: TICK 1, TICK 0 or nothing (R131). -/
def execTickc (c : BitVec 8) (s : State) : Result :=
  perform .P s fun s =>
    match sampleOf c with
    | some sample => s.takeSample sample
    | none => s.noEvents

end Sys2Proof.Machine
end

