-- ==== Sys2Proof/Machine/Dispatch.lean ====
section
/-! DEFINITION. The one dispatch from a command to its meaning. -/

namespace Sys2Proof.Machine

def exec (i : Instr) (s : State) : Host.Outcome State Fault Refusal :=
  match i with
  | .nop port => Sys2Proof.Machine.execNop port s
  | .tick smp => Sys2Proof.Machine.execTick smp s
  | .tickc c => Sys2Proof.Machine.execTickc c s
  | .rdbit k => Sys2Proof.Machine.execRdbit k s
  | .rdsym k => Sys2Proof.Machine.execRdsym k s
  | .rdcnt k => Sys2Proof.Machine.execRdcnt k s
  | .rdedge k => Sys2Proof.Machine.execRdedge k s
  | .rdhh k => Sys2Proof.Machine.execRdhh k s
  | .rdreg r => Sys2Proof.Machine.execRdreg r s
  | .fdec k => Sys2Proof.Machine.execFdec k s

end Sys2Proof.Machine
end

