-- ==== Sys2Proof/Machine/Step.lean ====
section
/-! DEFINITION. One step of the machine: it takes what the ports present next and performs it atomically (R57). -/

namespace Sys2Proof.Machine

/-- One step: exactly one command, or the reset input, or an idle clock (R57, R58, R87, R270). -/
def step (s : State) : Host.Outcome State Fault Refusal :=
  match s.present with
  | .nothing s' => .next s'.idle
  | .resetting s' => .next s'.resetBlock
  | .word port w s' =>
    match decode port w with
    | .command i => exec i s'
    | .illegal _ => execIllegal port s'

/-- Present a table row's word next, in a clock of its own, on the port that accepts it. -/
def State.withFetchWord (s : State) (nbits w : Nat) : State :=
  { s with inputs := Clock.single (portOf (tableWord nbits w)) (tableWord nbits w) :: s.inputs }

end Sys2Proof.Machine
end

