-- ==== Sys2Proof/Machine/Assembler.lean ====
section
/-! DEFINITION. The assembler of R95 to R98: a text to the words it presents, each with its port. It is no part of the
block; it says what the programs of the spec mean. -/

namespace Sys2Proof.Machine

/-- A word presented on a port. -/
abbrev PortWord := Port × Cmd

/-- A token of assembler text. -/
inductive Token where
  | word (w : String)
  | text (cs : List Char)
  | lbrace
  | rbrace
  | comma
deriving DecidableEq, Repr

/-- Where the lexer stands: in a word (its characters so far, last first), in a comment, in a string, or after a
backslash in a string. -/
inductive LexMode where
  | plain (acc : List Char)
  | comment
  | text (acc : List Char)
  | escape (acc : List Char)

/-- The word read so far, if any, before what follows. -/
def flushWord (acc : List Char) (rest : List Token) : List Token :=
  if acc.isEmpty then rest else .word (String.ofList acc.reverse) :: rest

/-- The single-character tokens; the codes are those of the two braces and the comma. -/
def punctuation (c : Char) : Option Token :=
  if c.toNat = 0x7B then some .lbrace
  else if c.toNat = 0x7D then some .rbrace
  else if c = ',' then some .comma
  else none

/-- "A `;` starts a comment" (R95); a string stands in double quotes and `\n` in it is a line feed (R97, R131). -/
def lexFrom : LexMode → List Char → Option (List Token)
  | .plain acc, [] => some (flushWord acc [])
  | .comment, [] => some []
  | .text _, [] => none
  | .escape _, [] => none
  | .plain acc, c :: cs =>
    if c = ';' then (lexFrom .comment cs).map (flushWord acc)
    else if c = '"' then (lexFrom (.text []) cs).map (flushWord acc)
    else if c.isWhitespace then (lexFrom (.plain []) cs).map (flushWord acc)
    else
      match punctuation c with
      | some t => (lexFrom (.plain []) cs).map fun ts => flushWord acc (t :: ts)
      | none => lexFrom (.plain (c :: acc)) cs
  | .comment, c :: cs => if c = '\n' then lexFrom (.plain []) cs else lexFrom .comment cs
  | .text acc, c :: cs =>
    if c = '"' then (lexFrom (.plain []) cs).map (.text acc.reverse :: ·)
    else if c = '\\' then lexFrom (.escape acc) cs
    else lexFrom (.text (c :: acc)) cs
  | .escape acc, c :: cs => lexFrom (.text ((if c = 'n' then '\n' else c) :: acc)) cs

/-- The value of a digit in a base. -/
def digitValue (base : Nat) (c : Char) : Option Nat :=
  let v := if '0' ≤ c ∧ c ≤ '9' then c.toNat - 48
    else if 'A' ≤ c ∧ c ≤ 'F' then c.toNat - 55
    else if 'a' ≤ c ∧ c ≤ 'f' then c.toNat - 87
    else 16
  if v < base then some v else none

/-- The number digits spell, continuing from `acc`. -/
def digitsValue (base acc : Nat) : List Char → Option Nat
  | [] => some acc
  | c :: cs => (digitValue base c).bind fun d => digitsValue base (base * acc + d) cs

/-- "decimal or `0x` hexadecimal" (R95). -/
def parseNumber (w : String) : Option Nat :=
  match w.toList with
  | [] => none
  | '0' :: 'x' :: c :: cs => digitsValue 16 0 (c :: cs)
  | c :: cs => digitsValue 10 0 (c :: cs)

/-- "the mnemonic in capitals" (R95). -/
def mnemonicOf : Opcode → String
  | .nop => "NOP"
  | .tick => "TICK"
  | .tickc => "TICKC"
  | .rdbit => "RDBIT"
  | .rdsym => "RDSYM"
  | .rdcnt => "RDCNT"
  | .rdedge => "RDEDGE"
  | .rdhh => "RDHH"
  | .rdreg => "RDREG"
  | .fdec => "FDEC"

/-- The opcodes, in the order of R85. -/
def allOpcodes : List Opcode := [.nop, .tick, .tickc, .rdbit, .rdsym, .rdcnt, .rdedge, .rdhh, .rdreg, .fdec]

/-- The name of a record field as an FDEC selector (R177). -/
def fieldName : RecField → String
  | .year => "YEAR"
  | .yday => "YDAY"
  | .hour => "HOUR"
  | .minute => "MINUTE"
  | .second => "SECOND"
  | .ly => "LY"
  | .ls => "LS"
  | .dst => "DST"
  | .ut1 => "UT1"

/-- The name of a register (R195). -/
def registerName : Reg → String
  | .seq => "SEQ"
  | .subsecPos => "SUBSECPOS"
  | .sos => "SOS"
  | .tss => "TSS"
  | .health => "HEALTH"
  | .status => "STATUS"
  | .rawHead => "RAWHEAD"
  | .symHead => "SYMHEAD"
  | .frames => "FRAMES"
  | .healthPct => "HEALTHPCT"
  | .phaseErr => "PHASEERR"
  | .record f => "REC_" ++ fieldName f
  | .pSubsec => "P_SUBSEC"
  | .pSymbols => "P_SYMBOLS"
  | .pHistory => "P_HISTORY"
  | .pBuffer => "P_BUFFER"
  | .pForceTss => "P_FORCE_TSS"
  | .pHealthPctThr => "P_HEALTH_PCT_THR"
  | .pRefBucket => "P_REF_BUCKET"

/-- The number of an FDEC selector named by its field (R96, R177). -/
def selectorNumber (w : String) : Option Nat :=
  ["ERR", "YEAR", "YDAY", "HOUR", "MINUTE", "SECOND", "LY", "LS", "DST", "UT1"].findIdx? (· == w)

/-- The number of a register named in the text (R96, R195). -/
def registerNumber (w : String) : Option Nat := (Reg.all.find? fun g => registerName g == w).map fun g => g.number.toNat

/-- An operand: a number, or a name where R96 allows one. -/
def parseOperand (op : Opcode) (w : String) : Option Nat :=
  match op with
  | .rdreg => (registerNumber w).or (parseNumber w)
  | .fdec => (selectorNumber w).or (parseNumber w)
  | _ => parseNumber w

/-- The bits the format gives the operand (R81). -/
def operandBits : Opcode → Nat
  | .nop => 0
  | .tick => 1
  | .tickc => 8
  | .rdbit => 12
  | .rdsym => 12
  | .rdcnt => 12
  | .rdedge => 12
  | .rdhh => 12
  | .rdreg => 8
  | .fdec => 4

/-- The default port: "`P:` for NOP, TICK, TICKC and `Q:` for the rest" (R95). -/
def defaultPort : Opcode → Port
  | .nop => .P
  | .tick => .P
  | .tickc => .P
  | _ => .Q

/-- The word of an opcode and an operand that fits its field (R80, R81). -/
def assembleWord (op : Opcode) (n : Nat) : Option Cmd :=
  if n < 2 ^ operandBits op then some (op.bits ++ BitVec.ofNat 12 n) else none

/-- `.rep n { body }` (R97). -/
def repeatBody (n : Nat) (body : List PortWord) : List PortWord := (List.replicate n body).flatten

/-- A character as the operand of TICKC; characters are 8-bit codes (R131, D27). -/
def tickOfChar (c : Char) : Option PortWord :=
  if c.toNat < 256 then some (.P, encode (.tickc (BitVec.ofNat 8 c.toNat))) else none

/-- `.text "string"`: "one `TICKC c` per character `c` of the string, in order" (R97). -/
def textWords (cs : List Char) : Option (List PortWord) := cs.mapM tickOfChar

/-- The samples of one clean second: `ones` of reduced carrier, then full carrier (R73). -/
def cleanSecond (p : Params) (ones : Nat) : List Bool :=
  List.replicate ones true ++ List.replicate (p.subsec - ones) false

/-- The run of ones of a clean symbol: `P1`, `P2`, `P3` (R73); nothing on the air is an Invalid. -/
def cleanOnes (p : Params) (sym : Symbol) : Nat :=
  if sym = symMark then boundC p else if sym = symOne then boundB p else boundA p

/-- A TICK per sample. -/
def tickWords (samples : List Bool) : List PortWord := samples.map fun s => (.P, encode (.tick s))

/-- `.sym0`, `.sym1`, `.symM`: one clean second of a symbol (R97). -/
def symWords (p : Params) (sym : Symbol) : List PortWord := tickWords (cleanSecond p (cleanOnes p sym))

/-- `SNAP r1, r2, ...`: one attempt of the snapshot protocol (R59, R97). -/
def snapWords (regs : List (BitVec 8)) : List PortWord :=
  let read (r : BitVec 8) : PortWord := (.Q, encode (.rdreg r))
  read 0 :: regs.map read ++ [read 0]

/-- The registers of a SNAP: operands with commas between them. -/
def parseRegisters : List Token → Option (List (BitVec 8) × List Token)
  | .word w :: .comma :: ts =>
    (parseOperand .rdreg w).bind fun n =>
      if n < 256 then (parseRegisters ts).map fun r => (BitVec.ofNat 8 n :: r.1, r.2) else none
  | .word w :: ts =>
    (parseOperand .rdreg w).bind fun n => if n < 256 then some ([BitVec.ofNat 8 n], ts) else none
  | _ => none

/-- The opcode of a mnemonic (R95). -/
def opcodeOfMnemonic (w : String) : Option Opcode := allOpcodes.find? fun op => mnemonicOf op == w

/-- A raw word: a 16-bit number on the port its prefix names. R95 names only a mnemonic after a prefix; program PR5
writes `P: 0x1002` and `Q: 0x3000`. DEDUCED (log 13): a number may stand there, and only after a prefix, since it has no
default port. -/
def parseRawWord (port : Option Port) (w : String) : Option PortWord :=
  port.bind fun port =>
    (parseNumber w).bind fun n => if n < 2 ^ 16 then some (port, BitVec.ofNat 16 n) else none

/-- A command: its mnemonic and, if the format has one, its operand (R95); or a raw word. -/
def parseCommand (port : Option Port) : List Token → Option (List PortWord × List Token)
  | .word w :: ts =>
    match opcodeOfMnemonic w with
    | none => (parseRawWord port w).map fun pw => ([pw], ts)
    | some op =>
      if operandBits op = 0 then (assembleWord op 0).map fun cmd => ([(port.getD (defaultPort op), cmd)], ts)
      else
        match ts with
        | .word o :: ts =>
          ((parseOperand op o).bind (assembleWord op)).map fun cmd => ([(port.getD (defaultPort op), cmd)], ts)
        | _ => none
  | _ => none

/-- The commands up to the end of the text or the closing brace of a `.rep`; each step of the fuel takes a token. -/
def parseProgram (p : Params) : (fuel : Nat) → List Token → Option (List PortWord × List Token)
  | 0, _ => none
  | _ + 1, [] => some ([], [])
  | _ + 1, .rbrace :: ts => some ([], .rbrace :: ts)
  | fuel + 1, .word w :: ts =>
    let item : Option (List PortWord × List Token) :=
      if w = "P:" then parseCommand (some .P) ts
      else if w = "Q:" then parseCommand (some .Q) ts
      else if w = ".sym0" then some (symWords p symZero, ts)
      else if w = ".sym1" then some (symWords p symOne, ts)
      else if w = ".symM" then some (symWords p symMark, ts)
      else if w = ".text" then
        match ts with
        | .text cs :: ts => (textWords cs).map fun ws => (ws, ts)
        | _ => none
      else if w = ".rep" then
        match ts with
        | .word n :: .lbrace :: ts =>
          (parseNumber n).bind fun n =>
            (parseProgram p fuel ts).bind fun body =>
              match body.2 with
              | .rbrace :: ts => some (repeatBody n body.1, ts)
              | _ => none
        | _ => none
      else if w = "SNAP" then (parseRegisters ts).map fun r => (snapWords r.1, r.2)
      else parseCommand none (.word w :: ts)
    item.bind fun i => (parseProgram p fuel i.2).map fun rest => (i.1 ++ rest.1, rest.2)
  | _ + 1, _ => none

/-- A text to the words it presents; `none` where it is no program of R95 to R97. -/
def assemble (p : Params) (source : String) : Option (List PortWord) :=
  (lexFrom (.plain []) source.toList).bind fun ts =>
    match parseProgram p (ts.length + 1) ts with
    | some (ws, []) => some ws
    | _ => none

/-- The samples of a text fixture: "each `_` becomes `TICK 1`, each `#` becomes `TICK 0`, and every other character,
line ends included, becomes nothing" (R98). -/
def fixtureSamples (cs : List (BitVec 8)) : List Bool := cs.filterMap sampleOf

/-- Present words after what is already waiting, one clock each. -/
def State.load (s : State) (ws : List PortWord) : State :=
  { s with inputs := s.inputs ++ ws.map fun pw => Clock.single pw.1 pw.2 }

end Sys2Proof.Machine
end

