-- ==== Sys2Proof/Machine/Calendar.lean ====
section
/-! DEFINITION. The Calendar Engine, the companion unit: "a pure function on a record value" for each operation
(R210 to R223). It has no port, no command and no state in the block. -/

namespace Sys2Proof.Machine

/-- The leap-year rule on a 2000-based year (R212). -/
def isLeap (year : Nat) : Bool :=
  (2000 + year) % 4 == 0 && ((2000 + year) % 100 != 0 || (2000 + year) % 400 == 0)

/-- 366 or 365 (R212). -/
def daysInYear (year : Nat) : Nat := if isLeap year then 366 else 365

/-- `L`: 1 in a leap year, else 0 (R213). -/
def leapShift (year : Nat) : Nat := if isLeap year then 1 else 0

/-- The well-formed records, the domain of the operations (R211). -/
abbrev CalRecord.WellFormed (t : CalRecord) : Prop :=
  1 ≤ t.yday ∧ t.yday ≤ daysInYear t.year ∧ t.hour ≤ 23 ∧ t.minute ≤ 59 ∧ t.second ≤ 60 ∧ t.dst ≤ 3 ∧
  -9 ≤ t.ut1 ∧ t.ut1 ≤ 9 ∧ t.ls ≤ 1 ∧ t.ly ≤ 1

/-- "leap-second-flag set AND time is 23:59 AND day-of-year is the last day of June or December" (R213, R214). -/
def leapMinute (t : CalRecord) : Bool :=
  t.ls == 1 && t.hour == 23 && t.minute == 59 &&
    (t.yday == 181 + leapShift t.year || t.yday == 365 + leapShift t.year)

/-- `seconds_in_minute` (R214). -/
def secondsInMinute (t : CalRecord) : Nat :=
  if leapMinute t then if t.ut1 < 0 then 61 else if 0 < t.ut1 then 59 else 60 else 60

/-- "relax the UT1 offset by 10 (tenths) toward zero", not clamped (R215, R220). -/
def relaxUt1 (p : Params) (ut1 : Int) : Int :=
  if ut1 < 0 then ut1 + (p.ut1Relax : Int) else if 0 < ut1 then ut1 - (p.ut1Relax : Int) else ut1

/-- The first part of a minute step: after a minute that was not 60 seconds long, clear the flag and relax (R215). -/
def settleLeapSecond (p : Params) (t : CalRecord) : CalRecord :=
  if secondsInMinute t = 60 then t else { t with ls := 0, ut1 := relaxUt1 p t.ut1 }

/-- "DST state transitions 1 (ending today) → 0 (standard) and 2 (starting today) → 3 (daylight)" (R215, R218). -/
def dstRollover (dst : Nat) : Nat := if dst = 1 then 0 else if dst = 2 then 3 else dst

/-- The day rollover of a minute step (R215, R218, R219). -/
def rollDay (t : CalRecord) : CalRecord :=
  if daysInYear t.year < t.yday + 1 then
    { t with hour := 0, yday := 1, dst := dstRollover t.dst, year := t.year + 1 }
  else { t with hour := 0, yday := t.yday + 1, dst := dstRollover t.dst }

/-- "roll minute→hour→day-of-year→year with standard carry rules" (R215). -/
def rollMinute (t : CalRecord) : CalRecord :=
  if 60 ≤ t.minute + 1 then
    if 24 ≤ t.hour + 1 then rollDay { t with minute := 0 } else { t with minute := 0, hour := t.hour + 1 }
  else { t with minute := t.minute + 1 }

/-- One minute step; `second` and `ly` are not touched (R215). -/
def advanceMinute (p : Params) (t : CalRecord) : CalRecord := rollMinute (settleLeapSecond p t)

/-- `advance_minutes(n)`: `advance_minute` `n` times (R217). -/
def advanceMinutes (p : Params) (t : CalRecord) : Nat → CalRecord
  | 0 => t
  | n + 1 => advanceMinutes p (advanceMinute p t) n

/-- The loop of `advance_seconds`, at most `fuel` minutes (R216). -/
def carrySeconds (p : Params) : (fuel : Nat) → CalRecord → CalRecord
  | 0, t => t
  | fuel + 1, t =>
    if secondsInMinute t ≤ t.second then
      carrySeconds p fuel (advanceMinute p { t with second := t.second - secondsInMinute t })
    else t

/-- `advance_seconds(n)` (R216). Every minute has at least 59 seconds, so the fuel never runs out. -/
def advanceSeconds (p : Params) (t : CalRecord) (n : Nat) : CalRecord :=
  carrySeconds p ((t.second + n) / 59 + 1) { t with second := t.second + n }

/-- `year_base`: the seconds of the years before (R221). -/
def yearBase : Nat → Nat
  | 0 => 0
  | year + 1 => yearBase year + 86400 * daysInYear year

/-- `to_utc`: seconds from 2000-01-01T00:00:00, leap seconds not counted (R221). -/
def toUtc (t : CalRecord) : Nat :=
  yearBase t.year + ((((t.yday - 1) * 24 + t.hour) * 60 + t.minute) * 60 + min t.second 59)

/-- A date and time of day (R222, R223). -/
structure CivilTime where
  year : Nat
  yday : Nat
  hour : Nat
  minute : Nat
  second : Nat
deriving DecidableEq, Repr

/-- The loop of `from_abs`: strip whole years off, at most `fuel` of them (R222). -/
def stripYears : (fuel : Nat) → (year a : Nat) → Nat × Nat
  | 0, year, a => (year, a)
  | fuel + 1, year, a =>
    if 86400 * daysInYear year ≤ a then stripYears fuel (year + 1) (a - 86400 * daysInYear year) else (year, a)

/-- `from_abs`, the inverse of `to_utc` (R222). Every year has at least 365 days, so the fuel never runs out. -/
def fromAbs (a : Nat) : CivilTime :=
  let y := stripYears (a / (86400 * 365) + 1) 0 a
  ⟨y.1, y.2 / 86400 + 1, y.2 % 86400 / 3600, y.2 % 3600 / 60, y.2 % 60⟩

/-- Does daylight time apply at a local standard hour (R223)? -/
def dstApplies (dst hour : Nat) : Bool := dst == 3 || (dst == 2 && 2 ≤ hour) || (dst == 1 && hour < 1)

/-- The local time at an absolute local-standard second count (R223). -/
def localTime (t : CalRecord) (a : Nat) (observeDst : Bool) : CivilTime :=
  let b := if observeDst && dstApplies t.dst (fromAbs a).hour then fromAbs (a + 3600) else fromAbs a
  if t.second = 60 then { b with second := b.second + 1 } else b

/-- `apply_zone_and_dst(offset, observe_dst)`, the offset in seconds, signed, added; "a >= 0 required", so none before
the epoch (R223). -/
def applyZoneAndDst (t : CalRecord) (offset : Int) (observeDst : Bool) : Option CivilTime :=
  if (toUtc t : Int) + offset < 0 then none
  else some (localTime t ((toUtc t : Int) + offset).toNat observeDst)

end Sys2Proof.Machine
end

