-- ==== Sys2Proof/Safety.lean ====
section
/-! DEFINITION. The terms claims are stated in: a running and a halted block, the invariant of a block, the classes
of inputs, the ideal waveform of a symbol. -/

namespace Sys2Proof.Machine

/-- The block is not halted: the safe states, those in which a command has its own effect (R44, R243). -/
abbrev State.Running (s : State) : Prop := s.block.fault = false

/-- The block is halted until reset (R243). -/
abbrev State.Halted (s : State) : Prop := s.block.fault = true

/-- The number of reduced-carrier samples of the window that lie in bucket `k`: logical indices `j` in `[0, BUFFER)`
with `BAT(raw, j) = 1` and `(raw.head + j) mod SUBSEC = k` (R27). -/
def bucketCount (p : Params) (raw : Ring) (k : Nat) : Nat :=
  (List.range p.buffer).countP fun j => raw.sample j && (raw.head + j) % p.subsec == k

/-- The ranges of a record latched under `INVALID_POLICY = reject` (R41, R171). -/
abbrev CalRecord.InFrameRange (r : CalRecord) : Prop :=
  r.year ≤ 99 ∧ r.yday ≤ 399 ∧ r.hour ≤ 39 ∧ r.minute ≤ 79 ∧ r.second = 0 ∧ r.ly ≤ 1 ∧ r.ls ≤ 1 ∧ r.dst ≤ 3 ∧
  -9 ≤ r.ut1 ∧ r.ut1 ≤ 9

/-- The invariant of a block: the ranges and equations the spec states of every reachable state. -/
structure Block.Inv (p : Params) (b : Block) : Prop where
  /-- fixed lengths, heads in range (R20, R21, R22, R65) -/
  storage : Memory.wf p b
  /-- R25 -/
  subsecRange : b.subsec < p.subsec
  /-- R30 -/
  sosRange : b.sos < p.subsec
  /-- R32 -/
  tssRange : b.tss ≤ p.forceTss + 1
  /-- "`raw.head mod SUBSEC = subsec` holds after reset and after every step" (R24) -/
  aligned : b.raw.head % p.subsec = b.subsec
  /-- "Between steps `sring.head` is even" (R22) -/
  symAligned : b.sring.head % 2 = 0
  /-- the invariant of `counts` (R27) -/
  countsAgree : ∀ k < p.subsec, b.counts.getD k 0 = bucketCount p b.raw k
  /-- "each a signed value in `[−HISTORY, +HISTORY]`" (R28) -/
  edgesRange : ∀ k < p.subsec, -(p.history : Int) ≤ b.edges.getD k 0 ∧ b.edges.getD k 0 ≤ (p.history : Int)
  /-- "each in `[0, SUBSEC]`" (R33) -/
  scoresRange : ∀ k < p.symbols, b.healthHistory.getD k 0 ≤ p.subsec
  /-- "`health` = sum of `health_history` at all times" (R36) -/
  healthAgree : b.health = b.healthHistory.sum
  /-- `last_sym` is the newest symbol of the ring (R40, R111) -/
  newestSym : b.sring.symbolAt (p.symbols - 1) = b.lastSym
  /-- `fault_cause` is 0 while `fault = 0`, and only then (R240) -/
  causeAgree : b.fault = false ↔ b.faultCause = .none
  /-- nothing has been latched before the first successful decode (R42, R43, R48) -/
  unlatched : b.recValid = false → b.record = CalRecord.zero ∧ b.frames = 0
  /-- the ranges of R41 and R171 -/
  recordRange : p.invalidPolicy = .reject → b.record.InFrameRange

/-- The invariant of the machine: a legal configuration and the invariant of its block. -/
structure State.Inv (s : State) : Prop where
  legal : s.cfg.Legal
  block : s.block.Inv s.cfg

/-- The all-zero state of R48, piece by piece. -/
structure Block.AllZero (p : Params) (b : Block) : Prop where
  rawBits : b.raw.bits = List.replicate p.buffer false
  rawHead : b.raw.head = 0
  sringBits : b.sring.bits = List.replicate (2 * p.symbols) false
  sringHead : b.sring.head = 0
  counts : b.counts = List.replicate p.subsec 0
  edges : b.edges = List.replicate p.subsec 0
  healthHistory : b.healthHistory = List.replicate p.symbols 0
  scalars : b.subsec = 0 ∧ b.sos = 0 ∧ b.tss = 0 ∧ b.health = 0 ∧ b.seq = 0
  latches : b.newSecond = false ∧ b.lastSym = 0 ∧ b.recValid = false ∧ ferrCode b.ferr = 0 ∧ b.frames = 0
  record : b.record = ⟨0, 0, 0, 0, 0, 0, 0, 0, 0⟩
  fault : b.fault = false ∧ b.faultCause.code = 0

/-- The fault indication of a port: `p_fault = 1` or `q_fault = 1`; the rest of the answer is any value (R84, R243). -/
def Response.ShowsFault : Port → Response → Prop
  | .P, r => ∃ second symbol frame, r = .onP second symbol frame true
  | .Q, r => ∃ data, r = .onQ data true

/-- Fault entry from `s` to `t`: "writes `fault <- 1` and `fault_cause <- code` and nothing else", and the command
returns the fault indication (R243). On the pins, where alone the fault state can be read, `fault` is 1 and
`fault_cause` 1 for BoundsFault and 2 for IllegalCommand (R240, R253). -/
structure FaultEntry (port : Port) (cause : FaultCause) (s t : State) : Prop where
  block : t.block = { s.block with fault := true, faultCause := cause }
  pinFault : t.pins.fault = true
  boundsPin : cause = .bounds → t.pins.faultCause = 1
  illegalPin : cause = .illegal → t.pins.faultCause = 2
  shown : Response.ShowsFault port t.out
  cfg : t.cfg = s.cfg
  inputs : t.inputs = s.inputs

/-- A run of puts on a ring: the ring after it. -/
def Ring.putAll (r : Ring) (bs : List Bool) : Ring := bs.foldl (fun r b => (r.bput b).2) r

/-- The bits a run of puts returns, in order. -/
def Ring.evictedBy (r : Ring) : List Bool → List Bool
  | [] => []
  | b :: bs => (r.bput b).1 :: (r.bput b).2.evictedBy bs

/-- A run of pushes on a symbol ring: the ring after it. -/
def Ring.pushAll (r : Ring) (vs : List Symbol) : Ring := vs.foldl (fun r v => (r.sput v).2) r

/-- The symbols a run of pushes returns, in order. -/
def Ring.pushedOut (r : Ring) : List Symbol → List Symbol
  | [] => []
  | v :: vs => (r.sput v).1 :: (r.sput v).2.pushedOut vs

/-- The 2000-based year rule of R212: "`year mod 4==0 and (year mod 100≠0 or year mod 400==0)`". -/
abbrev LeapYear (year : Nat) : Prop :=
  (2000 + year) % 4 = 0 ∧ ((2000 + year) % 100 ≠ 0 ∨ (2000 + year) % 400 = 0)

/-- No clock still to come asserts the reset input. -/
abbrev State.NoReset (s : State) : Prop := ∀ c ∈ s.inputs, c.reset = false

/-- The offsets at which the ideal second of a symbol is reduced: the first `P1`, `P2` or `P3` of them (R73, R146). -/
def idealReduced (p : Params) (sym : Symbol) (k : Nat) : Bool :=
  k < (if sym = symMark then boundC p else if sym = symOne then boundB p else boundA p)

/-- The second just completed is `ones` samples of reduced carrier and then full carrier (R73, R141). -/
abbrev SecondIs (p : Params) (raw : Ring) (ones : Nat) : Prop :=
  ∀ k < p.subsec, raw.sample (p.buffer - p.subsec + k) = decide (k < ones)

/-- The date and time of day of a record. -/
def CalRecord.civil (t : CalRecord) : CivilTime := ⟨t.year, t.yday, t.hour, t.minute, t.second⟩

end Sys2Proof.Machine
end

