-- ==== Sys2Proof/Certificates/Slice0/Obligations.lean ====
section
/-! DEFINITION. The statements for the provers. Each docstring names the rule of the spec it formalises, or says that
it rests on a choice of the model. "D<n>" is a decision of spec/92_eei_decisions.md: a clause that rests on one rests on
what the spec marks as its own choice, which the rule named beside it states. -/

open Sys2Proof Sys2Proof.Machine

/-! ## Encoding -/

/-- Decoding the word of a well-formed command on its port gives the command back (R80, R81, R85, R87). -/
def Obligations.DecodeOfEncodeIsTheCommand : Prop :=
  ∀ i : Instr, i.wellFormed = true → decode i.port (encode i) = .command i

/-- A word that decodes is the word of the command it decodes to, presented on that command's port, and that command
is well formed: no bit of a word is dropped (R85, R87). -/
def Obligations.EncodeOfDecodedIsTheWord : Prop :=
  ∀ (port : Port) (w : Cmd) (i : Instr), decode port w = .command i →
    encode i = w ∧ i.port = port ∧ i.wellFormed = true

/-- "a word `w` is the command iff `w & mask == match`" (R85), with the port right of R83 and the operand values of
R94: and no word fits two rows. -/
def Obligations.DecodingFollowsTheTable : Prop :=
  (∀ (port : Port) (w : Cmd) (op : Opcode),
    (∃ i, decode port w = .command i ∧ i.opcode = op) ↔
      (w &&& op.row.mask = op.row.pattern ∧ op.accepted port = true ∧
        (op = .rdreg → assignedRegister (w.extractLsb' 0 8) = true) ∧
        (op = .fdec → (w.extractLsb' 0 4).toNat ≤ 9))) ∧
  ∀ (w : Cmd) (op op' : Opcode), w &&& op.row.mask = op.row.pattern → w &&& op'.row.mask = op'.row.pattern → op = op'

/-- The illegal words of R93 and R94: reserved opcodes on either port, an opcode on the wrong port, must-be-zero bits,
unassigned register numbers, selectors above 9. -/
def Obligations.IllegalWordsAreRejected : Prop :=
  ∀ (port : Port) (w : Cmd),
    ((w.extractLsb' 12 4).toNat ∈ [0x3, 0x4, 0x5, 0x6, 0x7, 0xF] ∨
     (port = .Q ∧ (w.extractLsb' 12 4).toNat ∈ [0x1, 0x2]) ∨
     (port = .P ∧ (w.extractLsb' 12 4).toNat ∈ [0x8, 0x9, 0xA, 0xB, 0xC, 0xD, 0xE]) ∨
     (w.extractLsb' 12 4 = 0x0 ∧ w.extractLsb' 0 12 ≠ 0) ∨
     (w.extractLsb' 12 4 = 0x1 ∧ w.extractLsb' 1 11 ≠ 0) ∨
     (w.extractLsb' 12 4 = 0x2 ∧ w.extractLsb' 8 4 ≠ 0) ∨
     (w.extractLsb' 12 4 = 0xD ∧ w.extractLsb' 8 4 ≠ 0) ∨
     (w.extractLsb' 12 4 = 0xE ∧ w.extractLsb' 4 8 ≠ 0) ∨
     (w.extractLsb' 12 4 = 0xD ∧ w.extractLsb' 8 4 = 0 ∧
       ((0x0B ≤ (w.extractLsb' 0 8).toNat ∧ (w.extractLsb' 0 8).toNat ≤ 0x0F) ∨
        (0x19 ≤ (w.extractLsb' 0 8).toNat ∧ (w.extractLsb' 0 8).toNat ≤ 0x1F) ∨
        0x27 ≤ (w.extractLsb' 0 8).toNat)) ∨
     (w.extractLsb' 12 4 = 0xE ∧ w.extractLsb' 4 8 = 0 ∧ 10 ≤ (w.extractLsb' 0 4).toNat)) →
    ∃ e, decode port w = .illegal e

/-- The words the spec writes out in its examples decode to the commands they stand for (R95, R85). -/
def Obligations.SpecWordsDecode : Prop :=
  decode .P 0x1001 = .command (.tick true) ∧ decode .P 0x1000 = .command (.tick false) ∧
  decode .P 0x205F = .command (.tickc 0x5F) ∧ decode .Q 0x87CF = .command (.rdbit 1999) ∧
  decode .Q 0x903C = .command (.rdsym 60) ∧ decode .Q 0xA007 = .command (.rdcnt 7) ∧
  decode .Q 0xB006 = .command (.rdedge 6) ∧ decode .Q 0xC000 = .command (.rdhh 0) ∧
  decode .Q 0xD002 = .command (.rdreg 0x02) ∧ decode .Q 0xE000 = .command (.fdec 0) ∧
  decode .Q 0x0000 = .command (.nop .Q) ∧ decode .P 0x0000 = .command (.nop .P)

/-- The examples of R95 and R96 assemble to the words the spec gives, and the pseudo-instructions of R97 (`.rep`,
`.text`, `.sym0`, `.sym1`, `.symM`, `SNAP`) to their expansions, at every `SUBSEC`. The notation is the spec's own choice
(D23). -/
def Obligations.SpecLinesAssemble : Prop :=
  assemble Params.default "TICK 1" = some [(.P, 0x1001)] ∧
  assemble Params.default "TICKC 0x5F" = some [(.P, 0x205F)] ∧
  assemble Params.default "RDBIT 1999" = some [(.Q, 0x87CF)] ∧
  assemble Params.default "RDSYM 60" = some [(.Q, 0x903C)] ∧
  assemble Params.default "RDEDGE 6" = some [(.Q, 0xB006)] ∧
  assemble Params.default "RDREG 0x02" = some [(.Q, 0xD002)] ∧
  assemble Params.default "FDEC 0" = some [(.Q, 0xE000)] ∧
  assemble Params.default "Q: NOP" = some [(.Q, 0x0000)] ∧
  assemble Params.default "RDREG SOS" = some [(.Q, 0xD002)] ∧
  assemble Params.default "FDEC YEAR" = some [(.Q, 0xE001)] ∧
  assemble Params.default (String.ofList (".rep 2 ".toList ++ [Char.ofNat 0x7B] ++
    "\nTICK 1\nTICKC 0x5F\n".toList ++ [Char.ofNat 0x7D])) = some [(.P, 0x1001), (.P, 0x205F), (.P, 0x1001), (.P, 0x205F)] ∧
  assemble Params.default ".text \"_#A\"" = some [(.P, 0x205F), (.P, 0x2023), (.P, 0x2041)] ∧
  assemble Params.default "SNAP SOS, 3" = some [(.Q, 0xD000), (.Q, 0xD002), (.Q, 0xD003), (.Q, 0xD000)] ∧
  ∀ p : Params, ∀ line ∈ [(".sym0", (500 + 200 * p.subsec) / 1000), (".sym1", (500 + 500 * p.subsec) / 1000),
      (".symM", (500 + 800 * p.subsec) / 1000)],
    assemble p line.1 =
      some (List.replicate line.2 (Port.P, 0x1001) ++ List.replicate (p.subsec - line.2) (Port.P, 0x1000))

/-! ## The step -/

/-- A step runs the decoded command: with one word presented it is that command's meaning with the clock consumed;
with two, the port P word's, the port Q word staying presented (R57, R58, R87). How commands reach the block as clocks is
the model's choice (log 2). -/
def Obligations.StepRunsTheDecodedCommand : Prop :=
  ∀ (s : State) (w v : Cmd) (rest : List Clock) (i : Instr),
    (s.inputs = ⟨false, some w, none⟩ :: rest → decode .P w = .command i →
      step s = exec i { s with inputs := rest }) ∧
    (s.inputs = ⟨false, none, some w⟩ :: rest → decode .Q w = .command i →
      step s = exec i { s with inputs := rest }) ∧
    (s.inputs = ⟨false, some w, some v⟩ :: rest → decode .P w = .command i →
      step s = exec i { s with inputs := ⟨false, none, some v⟩ :: rest })

/-- When both ports present a word in one clock, two steps deal with the P word and then with the Q word on the state it
left (R58, D1): a Q command is performed there, and a Q word that is no command raises IllegalCommand there. A P word that
is no command leaves the block halted, "the port Q command finds the block halted and is answered with the fault
indication without being decoded" (R244), so whatever the Q word is. That the two take two steps is the model's choice
(log 2). -/
def Obligations.ProducerCommandComesFirst : Prop :=
  ∀ (s : State) (w v : Cmd) (rest : List Clock), s.inputs = ⟨false, some w, some v⟩ :: rest →
    (∀ i j, decode .P w = .command i → decode .Q v = .command j →
      ∃ t, exec i { s with inputs := ⟨false, none, some v⟩ :: rest } = .next t ∧
        Host.Core.run core 2 s = exec j { t with inputs := rest }) ∧
    (∀ i e, s.Running → decode .P w = .command i → decode .Q v = .illegal e →
      ∃ t u, exec i { s with inputs := ⟨false, none, some v⟩ :: rest } = .next t ∧
        Host.Core.run core 2 s = .next u ∧ FaultEntry .Q .illegal { t with inputs := rest } u) ∧
    ∀ e, decode .P w = .illegal e →
      ∃ t u, step s = .next t ∧ t.Halted ∧ Response.ShowsFault .P t.out ∧ Host.Core.run core 2 s = .next u ∧
        u.block = t.block ∧ u.cfg = s.cfg ∧ u.inputs = rest ∧ Response.ShowsFault .Q u.out

/-- Every step answers a next state and leaves the construction parameters as they are, "fixed when the block is built
and cannot change while it runs" (R9); a clock without a command, or nothing left to present, changes nothing in the
block and puts nothing out, which is the model's choice (log 2). -/
def Obligations.StepAlwaysAnswersNext : Prop :=
  ∀ (s : State) (rest : List Clock), ∃ t, step s = .next t ∧ t.cfg = s.cfg ∧
    (s.inputs = [] ∨ s.inputs = ⟨false, none, none⟩ :: rest → t.block = s.block ∧ t.out = .idle)

/-! ## Reset -/

/-- "After reset every piece of state of rule R20 is zero" (R48), every symbol slot reads as symbol 0, and the
invariants of R27, R32 and R36 hold (D3); the machine starts with the default parameters (R6, R7, R8, R10). -/
def Obligations.ResetStateIsZero : Prop :=
  State.reset.block.AllZero State.reset.cfg ∧
  (∀ j, State.reset.block.sring.symbolAt j = 0) ∧
  (∀ k, State.reset.block.counts.getD k 0 = bucketCount State.reset.cfg State.reset.block.raw k) ∧
  State.reset.block.tss ≤ State.reset.cfg.forceTss + 1 ∧
  State.reset.block.health = State.reset.block.healthHistory.sum ∧
  State.reset.cfg.subsec = 50 ∧ State.reset.cfg.history = 40 ∧
  State.reset.cfg.symbols = 61 ∧ State.reset.cfg.buffer = 2000 ∧ State.reset.cfg.forceTss = 50 ∧
  State.reset.cfg.healthPctThr = 97 ∧ State.reset.cfg.refBucket = 0 ∧ State.reset.cfg.ut1Relax = 10 ∧
  State.reset.cfg.invalidPolicy = .reject ∧ State.reset.cfg.sosScan = .argmax

/-- The reset input gives the all-zero state whatever the state was, halted or not, and no word presented with it is
accepted (R270, D3; how reset is presented is the model's choice, log 6). -/
def Obligations.ResetInputGivesTheZeroState : Prop :=
  ∀ (s : State) (p q : Option Cmd) (rest : List Clock), s.inputs = ⟨true, p, q⟩ :: rest →
    ∃ t, step s = .next t ∧ t.block.AllZero s.cfg ∧ t.cfg = s.cfg ∧ t.inputs = rest ∧ t.out = .idle

/-- The derived outputs in the reset state (R271), for every legal configuration: `health_pct`, `health_ok`,
`phase_err`, STATUS, every indexed read with a legal index, and `FDEC 0`. -/
def Obligations.ResetOutputs : Prop :=
  ∀ (p : Params) (i : BitVec 12), p.Legal →
    (State.resetOf p).pins.healthPct = 0 ∧
    ((State.resetOf p).pins.healthOk = true ↔ p.healthPctThr = 0) ∧
    (State.resetOf p).pins.phaseErr =
      ((0 - (p.refBucket : Int) + ((p.subsec / 2 : Nat) : Int)) % (p.subsec : Int)) - ((p.subsec / 2 : Nat) : Int) ∧
    (p.healthPctThr ≠ 0 →
      exec (.rdreg 0x05) (State.resetOf p) = .next { State.resetOf p with out := .onQ 0 false }) ∧
    (i.toNat < p.buffer → exec (.rdbit i) (State.resetOf p) = .next { State.resetOf p with out := .onQ 0 false }) ∧
    (i.toNat < p.symbols → exec (.rdsym i) (State.resetOf p) = .next { State.resetOf p with out := .onQ 0 false }) ∧
    (i.toNat < p.subsec → exec (.rdcnt i) (State.resetOf p) = .next { State.resetOf p with out := .onQ 0 false }) ∧
    (i.toNat < p.subsec → exec (.rdedge i) (State.resetOf p) = .next { State.resetOf p with out := .onQ 0 false }) ∧
    (i.toNat < p.symbols → exec (.rdhh i) (State.resetOf p) = .next { State.resetOf p with out := .onQ 0 false }) ∧
    exec (.fdec 0) (State.resetOf p) = .next { State.resetOf p with out := .onQ 1 false }

/-! ## Invariants -/

/-- The invariant holds right after reset, for every legal configuration (R24, R27, R32, R36, R48). -/
def Obligations.InvHoldsAtReset : Prop :=
  State.reset.Inv ∧ ∀ p : Params, p.Legal → (State.resetOf p).Inv

/-- Every step keeps the invariant, from every state that meets it and whatever the ports present: storage and ranges
(R20 to R34), the head of `raw` follows `subsec` (R24), `counts` agrees with the window (R27), `tss` is bounded (R32),
`health` is the sum of the scores (R36), `last_sym` is the newest symbol (R40), a record under the default policy is in
the ranges of R41. -/
def Obligations.EveryStepKeepsInv : Prop :=
  ∀ s t : State, s.Inv → step s = .next t → t.Inv

/-- "In particular `0 ≤ counts[b] ≤ HISTORY`" (R27) and "`0 ≤ health ≤ HEALTH_MAX`" (R36), so `health_pct` is at most
100 (R197). -/
def Obligations.CountsAndHealthStayInRange : Prop :=
  ∀ s : State, s.Inv →
    (∀ k < s.cfg.subsec, s.block.counts.getD k 0 ≤ s.cfg.history) ∧ s.block.health ≤ s.cfg.symbols * s.cfg.subsec ∧
    s.pins.healthPct ≤ 100

/-! ## The rings -/

/-- The ring-buffer law (R66, R103): after any puts from the zero fill a ring reads, oldest first, as the last `cap`
of the zero fill followed by the values put, and the puts returned, in order, what came before those. The part on fewer
puts than `cap` is the spec's inference from R48, and the zero fill its decision D3. -/
def Obligations.BitRingHoldsTheMostRecent : Prop :=
  ∀ (cap : Nat) (bs : List Bool), 0 < cap →
    (List.range cap).map ((Ring.zeros cap).putAll bs).sample = (List.replicate cap false ++ bs).drop bs.length ∧
    (Ring.zeros cap).evictedBy bs = (List.replicate cap false ++ bs).take bs.length

/-- Losslessness of the symbol ring (R113): the same law with "value" read as symbol. -/
def Obligations.SymbolRingHoldsTheMostRecent : Prop :=
  ∀ (n : Nat) (vs : List Symbol), 0 < n →
    (List.range n).map ((Ring.zeros (2 * n)).pushAll vs).symbolAt = (List.replicate n 0 ++ vs).drop vs.length ∧
    (Ring.zeros (2 * n)).pushedOut vs = (List.replicate n 0 ++ vs).take vs.length

/-! ## NOP, TICK, TICKC -/

/-- NOP answers `q_data = 0` on port Q and no events on port P, and changes nothing else (R120, R250, D29). -/
def Obligations.NopDoesNothing : Prop :=
  ∀ s : State, s.Running →
    exec (.nop .Q) s = .next { s with out := .onQ 0 false } ∧
    exec (.nop .P) s = .next { s with out := .onP false s.block.lastSym false false }

/-- Steps 1, 2, 3 and 5 of TICK (R122, R123, R125, R100, R101), with their frame in `raw`, `counts` and `edges`, and the
sample counter (R38, R129), which is the spec's decision D17. -/
def Obligations.TickTakesTheSample : Prop :=
  ∀ (s : State) (smp : Bool), s.Inv → s.Running → ∃ t, exec (.tick smp) s = .next t ∧
    t.block.raw.sample (s.cfg.buffer - 1) = smp ∧
    (∀ j, j + 1 < s.cfg.buffer → t.block.raw.sample j = s.block.raw.sample (j + 1)) ∧
    t.block.raw.head = (s.block.raw.head + 1) % s.cfg.buffer ∧
    (t.block.counts.getD s.block.subsec 0 : Int) =
      (s.block.counts.getD s.block.subsec 0 : Int) + (smp.toNat : Int) - ((s.block.raw.sample 0).toNat : Int) ∧
    t.block.counts.getD s.block.subsec 0 ≤ s.cfg.history ∧
    (∀ k, k ≠ s.block.subsec → t.block.counts.getD k 0 = s.block.counts.getD k 0) ∧
    t.block.edges.getD s.block.subsec 0 =
      (t.block.counts.getD ((s.block.subsec + 1) % s.cfg.subsec) 0 : Int) -
        (t.block.counts.getD s.block.subsec 0 : Int) ∧
    (∀ k, k ≠ s.block.subsec → t.block.edges.getD k 0 = s.block.edges.getD k 0) ∧
    t.block.subsec = (s.block.subsec + 1) % s.cfg.subsec ∧ t.block.seq = s.block.seq + 1

/-- Step 4 (R124): `sos` is one past the least index of the greatest edge, wrapped, under the default reading and
whenever some edge is positive; with no positive edge the other two readings give 1 and the old value (D6, U3). -/
def Obligations.TickFindsTheSteepestRise : Prop :=
  ∀ (s : State) (smp : Bool), s.Inv → s.Running → ∃ t, exec (.tick smp) s = .next t ∧
    ((s.cfg.sosScan = .argmax ∨ ∃ k, k < s.cfg.subsec ∧ 0 < t.block.edges.getD k 0) →
      ∃ m, m < s.cfg.subsec ∧ t.block.sos = (m + 1) % s.cfg.subsec ∧
        (∀ k < s.cfg.subsec, t.block.edges.getD k 0 ≤ t.block.edges.getD m 0) ∧
        ∀ k < m, t.block.edges.getD k 0 < t.block.edges.getD m 0) ∧
    ((∀ k < s.cfg.subsec, t.block.edges.getD k 0 ≤ 0) →
      (s.cfg.sosScan = .zeroInit → t.block.sos = 1 % s.cfg.subsec) ∧
      (s.cfg.sosScan = .hold → t.block.sos = s.block.sos))

/-- Steps 6 and 7 (R126, R127): the boundary decision on the entry value of `tss`, the advanced `subsec`, the new `sos`
and the `sos` of entry (D7), with the threshold `FORCE_TSS` (D8); `tss` is cleared on a boundary and incremented
otherwise. -/
def Obligations.TickDeclaresTheBoundary : Prop :=
  ∀ (s : State) (smp : Bool), s.Running → ∃ t, exec (.tick smp) s = .next t ∧
    (t.block.newSecond = true ↔
      s.cfg.forceTss < s.block.tss ∨
      (s.cfg.subsec < 2 * s.block.tss ∧ (t.block.subsec = t.block.sos ∨ t.block.subsec = s.block.sos))) ∧
    (t.block.newSecond = true → t.block.tss = 0) ∧ (t.block.newSecond = false → t.block.tss = s.block.tss + 1)

/-- The frame of TICK: without a boundary the symbol ring, the health state, the symbol latch, the record latch and
the outcome latch are as they were; the fault state, the parameters, the inputs and the free-value counter always are
(R121, R40, R42). -/
def Obligations.TickFrame : Prop :=
  ∀ (s : State) (smp : Bool), s.Running → ∃ t, exec (.tick smp) s = .next t ∧
    (t.block.newSecond = false →
      t.block.sring = s.block.sring ∧ t.block.healthHistory = s.block.healthHistory ∧ t.block.health = s.block.health ∧
      t.block.lastSym = s.block.lastSym ∧ t.block.record = s.block.record ∧ t.block.recValid = s.block.recValid ∧
      t.block.ferr = s.block.ferr ∧ t.block.frames = s.block.frames) ∧
    t.block.fault = s.block.fault ∧ t.block.faultCause = s.block.faultCause ∧ t.cfg = s.cfg ∧
    t.inputs = s.inputs ∧ t.freeCtr = s.freeCtr

/-- A boundary classifies the second just completed, pushes its symbol as the newest, and updates the rolling total on
the slot the head named before the push, and no other slot (R128, R147, R40). -/
def Obligations.TickClosesTheSecond : Prop :=
  ∀ (s : State) (smp : Bool), s.Inv → s.Running → ∃ t, exec (.tick smp) s = .next t ∧
    (t.block.newSecond = true →
      t.block.lastSym = (classify s.cfg t.block.raw).sym ∧
      t.block.sring.symbolAt (s.cfg.symbols - 1) = (classify s.cfg t.block.raw).sym ∧
      (∀ j, j + 1 < s.cfg.symbols → t.block.sring.symbolAt j = s.block.sring.symbolAt (j + 1)) ∧
      t.block.sring.head / 2 = (s.block.sring.head / 2 + 1) % s.cfg.symbols ∧
      (t.block.health : Int) = (s.block.health : Int) + ((classify s.cfg t.block.raw).score : Int) -
        (s.block.healthHistory.getD (s.block.sring.head / 2) 0 : Int) ∧
      t.block.healthHistory.getD (s.block.sring.head / 2) 0 = (classify s.cfg t.block.raw).score ∧
      ∀ k, k ≠ s.block.sring.head / 2 → t.block.healthHistory.getD k 0 = s.block.healthHistory.getD k 0)

/-- A boundary that pushed a Mark attempts a decode of the window that ends with it: on success the record, `rec_valid`,
`frames` and `ferr = 0` are latched and `ev_frame = 1`, on failure `ferr` and nothing else and `ev_frame = 0`; no other
TICK touches these latches (R162, R175, R176, D11). -/
def Obligations.TickAttemptsAFrameOnAMark : Prop :=
  ∀ (s : State) (smp : Bool), s.Running → ∃ t, exec (.tick smp) s = .next t ∧
    (t.block.newSecond = true → t.block.lastSym = 2 →
      (∀ r, fdecode s.cfg t.block.sring = .decoded r →
        t.block.record = r ∧ t.block.recValid = true ∧ ferrCode t.block.ferr = 0 ∧
        t.block.frames = s.block.frames + 1 ∧ t.out = .onP true 2 true false) ∧
      ∀ e, fdecode s.cfg t.block.sring = .rejected e →
        ferrCode t.block.ferr = e.code ∧ t.block.record = s.block.record ∧ t.block.recValid = s.block.recValid ∧
        t.block.frames = s.block.frames ∧ t.out = .onP true 2 false false) ∧
    (¬(t.block.newSecond = true ∧ t.block.lastSym = 2) →
      t.block.ferr = s.block.ferr ∧ t.block.record = s.block.record ∧ t.block.recValid = s.block.recValid ∧
      t.block.frames = s.block.frames)

/-- The event outputs of TICK (R250): `ev_second` iff the step declared a boundary, `ev_symbol` the value of `last_sym`
after it, `ev_frame` iff it latched a new record, `p_fault = 0`. -/
def Obligations.TickEvents : Prop :=
  ∀ (s : State) (smp : Bool), s.Running → ∃ t frame, exec (.tick smp) s = .next t ∧
    t.out = .onP t.block.newSecond t.block.lastSym frame false ∧
    (frame = true ↔ t.block.newSecond = true ∧ t.block.lastSym = 2 ∧ ∃ r, fdecode s.cfg t.block.sring = .decoded r)

/-- TICKC is TICK 1 on `_`, TICK 0 on `#`, and on every other character changes nothing and puts out no event
(R131, R79, R250, D27). That `ev_symbol` then shows `last_sym` is the model's reading of R250 beside R131 (log 8). -/
def Obligations.TickcTakesACharacter : Prop :=
  ∀ (s : State) (c : BitVec 8), s.Running → ∃ t, exec (.tickc c) s = .next t ∧
    (c = 0x5F → exec (.tick true) s = .next t) ∧ (c = 0x23 → exec (.tick false) s = .next t) ∧
    (c ≠ 0x5F → c ≠ 0x23 → t = { s with out := .onP false s.block.lastSym false false })

/-! ## Runs of samples -/

/-- A text fixture presented as TICKC words has the effect of its `_` and `#` as samples, "and every other character,
line ends included, becomes nothing" (R98). -/
def Obligations.TextFixtureIsItsSamples : Prop :=
  ∀ (s : State) (cs : List (BitVec 8)) (rest : List Clock), s.Running →
    s.inputs = cs.map (fun c => Clock.single .P (encode (.tickc c))) ++ rest →
    ∃ t, Host.Core.run core cs.length s = .next t ∧ t.inputs = rest ∧
      t.block = tickAll s.cfg (fixtureSamples cs) s.block

/-- The debounce floor (R126, R127): none of the first `SUBSEC div 2 + 1` samples after a boundary declares one, so the
earliest next boundary is at tick `T + (SUBSEC div 2) + 2`; with a forcing threshold of at least `SUBSEC div 2`. -/
def Obligations.DebounceFloor : Prop :=
  ∀ (p : Params) (b : Block) (samples : List Bool), b.tss = 0 → p.subsec / 2 ≤ p.forceTss → samples ≠ [] →
    samples.length ≤ p.subsec / 2 + 1 →
    (tickAll p samples b).newSecond = false ∧ (tickAll p samples b).tss = samples.length

/-- The forced boundary (R127): whatever the samples, one of the `FORCE_TSS + 2` ticks after a boundary declares the
next. -/
def Obligations.BoundaryIsForced : Prop :=
  ∀ (p : Params) (b : Block) (samples : List Bool), b.tss = 0 → samples.length = p.forceTss + 2 →
    ∃ n, 0 < n ∧ n ≤ p.forceTss + 2 ∧ (tickAll p (samples.take n) b).newSecond = true

/-! ## The consumer's reads -/

/-- RDBIT answers the sample at a logical index and changes nothing (R102, R52, R84, D15). -/
def Obligations.RdbitReadsTheWindow : Prop :=
  ∀ (s : State) (i : BitVec 12), s.Running → Memory.wf s.cfg s.block → i.toNat < s.cfg.buffer →
    exec (.rdbit i) s = .next { s with
      out := .onQ (if s.block.raw.bits.getD ((s.block.raw.head + i.toNat) % s.cfg.buffer) false then 1 else 0) false }

/-- RDSYM answers the symbol at a logical symbol index, its more significant bit at the lower bit index, and changes
nothing (R112, R111, R54). -/
def Obligations.RdsymReadsTheSymbolRing : Prop :=
  ∀ (s : State) (i : BitVec 12), s.Running → Memory.wf s.cfg s.block → i.toNat < s.cfg.symbols →
    exec (.rdsym i) s = .next { s with
      out := .onQ (BitVec.ofNat 32
        (2 * (s.block.sring.bits.getD ((s.block.sring.head + 2 * i.toNat) % (2 * s.cfg.symbols)) false).toNat +
          (s.block.sring.bits.getD ((s.block.sring.head + 2 * i.toNat + 1) % (2 * s.cfg.symbols)) false).toNat))
        false }

/-- RDCNT, RDEDGE and RDHH answer the element the index names, counts and scores zero-extended, edges sign-extended,
and change nothing (R191, R192, R193, R84). -/
def Obligations.ArrayReads : Prop :=
  ∀ (s : State) (i : BitVec 12), s.Running →
    (i.toNat < s.cfg.subsec →
      exec (.rdcnt i) s =
        .next { s with out := .onQ (BitVec.ofNat 32 (s.block.counts.getD i.toNat 0)) false }) ∧
    (i.toNat < s.cfg.subsec →
      exec (.rdedge i) s =
        .next { s with out := .onQ (BitVec.ofInt 32 (s.block.edges.getD i.toNat 0)) false }) ∧
    (i.toNat < s.cfg.symbols →
      exec (.rdhh i) s =
        .next { s with out := .onQ (BitVec.ofNat 32 (s.block.healthHistory.getD i.toNat 0)) false })

/-- The register map of RDREG (R195, R194): each assigned number answers the value its row gives, and changes
nothing; every other number raises IllegalCommand (D16). That a value which does not fit in 32 bits (TSS,
FORCE_TSS, HEALTH_PCT_THR, REF_BUCKET at 2^32 or more) is truncated in its response word is the model's choice
(log 16). -/
def Obligations.RdregFollowsTheMap : Prop :=
  ∀ s : State, s.Running →
    (∀ r : BitVec 8, ((0x0B ≤ r.toNat ∧ r.toNat ≤ 0x0F) ∨ (0x19 ≤ r.toNat ∧ r.toNat ≤ 0x1F) ∨ 0x27 ≤ r.toNat) →
      ∃ t, exec (.rdreg r) s = .next t ∧ FaultEntry .Q .illegal s t) ∧
    ∀ row ∈ ([(0x00, s.block.seq), (0x01, BitVec.ofNat 32 s.block.subsec), (0x02, BitVec.ofNat 32 s.block.sos),
      (0x03, BitVec.ofNat 32 s.block.tss), (0x04, BitVec.ofNat 32 s.block.health),
      (0x05, statusWord s.cfg s.block), (0x06, BitVec.ofNat 32 s.block.raw.head),
      (0x07, BitVec.ofNat 32 (s.block.sring.head / 2)), (0x08, s.block.frames),
      (0x09, BitVec.ofNat 32 (100 * s.block.health / (s.cfg.symbols * s.cfg.subsec))),
      (0x0A, BitVec.ofInt 32 (phaseErr s.cfg s.block.sos)),
      (0x10, BitVec.ofNat 32 s.block.record.year), (0x11, BitVec.ofNat 32 s.block.record.yday),
      (0x12, BitVec.ofNat 32 s.block.record.hour), (0x13, BitVec.ofNat 32 s.block.record.minute),
      (0x14, BitVec.ofNat 32 s.block.record.second), (0x15, BitVec.ofNat 32 s.block.record.ly),
      (0x16, BitVec.ofNat 32 s.block.record.ls), (0x17, BitVec.ofNat 32 s.block.record.dst),
      (0x18, BitVec.ofInt 32 s.block.record.ut1), (0x20, BitVec.ofNat 32 s.cfg.subsec),
      (0x21, BitVec.ofNat 32 s.cfg.symbols), (0x22, BitVec.ofNat 32 s.cfg.history),
      (0x23, BitVec.ofNat 32 (s.cfg.subsec * s.cfg.history)), (0x24, BitVec.ofNat 32 s.cfg.forceTss),
      (0x25, BitVec.ofNat 32 s.cfg.healthPctThr), (0x26, BitVec.ofNat 32 s.cfg.refBucket)] :
        List (BitVec 8 × Word)),
      exec (.rdreg row.1) s = .next { s with out := .onQ row.2 false }

/-- The bits of STATUS (R92, R196, D16): 0 `new_second`, 1 `rec_valid`, 2 `health_ok`, 4:3 `last_sym`, 7:5 `ferr`, 31:8
zero. -/
def Obligations.StatusWordBits : Prop :=
  ∀ (p : Params) (b : Block),
    (statusWord p b).getLsbD 0 = b.newSecond ∧ (statusWord p b).getLsbD 1 = b.recValid ∧
    ((statusWord p b).getLsbD 2 = true ↔ p.healthPctThr * p.symbols * p.subsec ≤ 100 * b.health) ∧
    (statusWord p b).extractLsb' 3 2 = b.lastSym ∧ (statusWord p b).extractLsb' 5 3 = ferrCode b.ferr ∧
    (statusWord p b).extractLsb' 8 24 = 0

/-- `phase_err` (R199, D19): its formula, and what the formula says: it is the signed distance of `sos` from the
reference bucket around the ring of buckets, equal to `sos − REF_BUCKET` up to a multiple of `SUBSEC` and in
`[−H, SUBSEC − 1 − H]` with `H = SUBSEC div 2`. -/
def Obligations.PhaseErrorIsTheRingDistance : Prop :=
  ∀ (p : Params) (sos : Nat), p.Legal →
    phaseErr p sos =
      ((sos : Int) - (p.refBucket : Int) + ((p.subsec / 2 : Nat) : Int)) % (p.subsec : Int) -
        ((p.subsec / 2 : Nat) : Int) ∧
    -((p.subsec / 2 : Nat) : Int) ≤ phaseErr p sos ∧
    phaseErr p sos ≤ (p.subsec : Int) - 1 - ((p.subsec / 2 : Nat) : Int) ∧
    ∃ k : Int, phaseErr p sos = (sos : Int) - (p.refBucket : Int) + k * (p.subsec : Int)

/-- FDECODE decodes the window of R160, whose position `pos` is `SAT(SYMBOLS − 60 + pos)`. FDEC answers from that window
as it is now: selector 0 the result code, selectors 1 to 9 a field of the record, or 0 where the decode fails; it changes
nothing; a selector above 9 raises IllegalCommand (R177, R170, D16). -/
def Obligations.FdecAnswersFromTheWindow : Prop :=
  (∀ (p : Params) (sring : Ring),
    fdecode p sring =
      decodeWindow p.invalidPolicy ((List.range 60).map fun pos => sring.symbolAt (p.symbols - 60 + pos))) ∧
  ∀ s : State, s.Running →
    (∀ k : BitVec 4, 10 ≤ k.toNat → ∃ t, exec (.fdec k) s = .next t ∧ FaultEntry .Q .illegal s t) ∧
    (∀ e, fdecode s.cfg s.block.sring = .rejected e →
      exec (.fdec 0) s = .next { s with out := .onQ (e.code.setWidth 32) false } ∧
      ∀ k : BitVec 4, 1 ≤ k.toNat → k.toNat ≤ 9 → exec (.fdec k) s = .next { s with out := .onQ 0 false }) ∧
    ∀ r, fdecode s.cfg s.block.sring = .decoded r →
      exec (.fdec 0) s = .next { s with out := .onQ 0 false } ∧
      exec (.fdec 1) s = .next { s with out := .onQ (BitVec.ofNat 32 r.year) false } ∧
      exec (.fdec 2) s = .next { s with out := .onQ (BitVec.ofNat 32 r.yday) false } ∧
      exec (.fdec 3) s = .next { s with out := .onQ (BitVec.ofNat 32 r.hour) false } ∧
      exec (.fdec 4) s = .next { s with out := .onQ (BitVec.ofNat 32 r.minute) false } ∧
      exec (.fdec 5) s = .next { s with out := .onQ (BitVec.ofNat 32 r.second) false } ∧
      exec (.fdec 6) s = .next { s with out := .onQ (BitVec.ofNat 32 r.ly) false } ∧
      exec (.fdec 7) s = .next { s with out := .onQ (BitVec.ofNat 32 r.ls) false } ∧
      exec (.fdec 8) s = .next { s with out := .onQ (BitVec.ofNat 32 r.dst) false } ∧
      exec (.fdec 9) s = .next { s with out := .onQ (BitVec.ofInt 32 r.ut1) false }

/-- Right after a TICK whose boundary pushed a Mark, FDEC and the latches give the same answer: the result code is
`ferr`, and on success every FDEC field is the REC register of the same field (C7, R175, R177). -/
def Obligations.FdecAgreesWithTheLatch : Prop :=
  ∀ (s t : State) (smp : Bool), s.Running → exec (.tick smp) s = .next t → t.block.newSecond = true →
    t.block.lastSym = 2 →
    exec (.fdec 0) t = .next { t with out := .onQ ((ferrCode t.block.ferr).setWidth 32) false } ∧
    (t.block.ferr = none →
      ∀ pair ∈ ([(1, 0x10), (2, 0x11), (3, 0x12), (4, 0x13), (5, 0x14), (6, 0x15), (7, 0x16), (8, 0x17),
        (9, 0x18)] : List (BitVec 4 × BitVec 8)),
        exec (.fdec pair.1) t = exec (.rdreg pair.2) t)

/-- "Every port Q command is a pure read: it writes no state unless it faults, and when it faults it writes only
`fault` and `fault_cause`" (R190). -/
def Obligations.QueriesWriteNothing : Prop :=
  ∀ (s : State) (i : Instr), i.port = .Q → s.Running → ∃ t, exec i s = .next t ∧
    t.cfg = s.cfg ∧ t.inputs = s.inputs ∧
    t.block = { s.block with fault := t.block.fault, faultCause := t.block.faultCause } ∧
    (t.block.fault = false → t.block = s.block)

/-! ## Faults and the halted state -/

/-- BoundsFault (R241, R243, D14): these commands raise it, when the index is at or above the capacity they address, and
the pins then show `fault = 1` and `fault_cause = 1` (R240, R253, D22). -/
def Obligations.IndexOutOfRangeFaults : Prop :=
  ∀ (s : State) (i : BitVec 12), s.Running → Memory.wf s.cfg s.block →
    (s.cfg.buffer ≤ i.toNat → ∃ t, exec (.rdbit i) s = .next t ∧ FaultEntry .Q .bounds s t) ∧
    (s.cfg.symbols ≤ i.toNat → ∃ t, exec (.rdsym i) s = .next t ∧ FaultEntry .Q .bounds s t) ∧
    (s.cfg.subsec ≤ i.toNat → ∃ t, exec (.rdcnt i) s = .next t ∧ FaultEntry .Q .bounds s t) ∧
    (s.cfg.subsec ≤ i.toNat → ∃ t, exec (.rdedge i) s = .next t ∧ FaultEntry .Q .bounds s t) ∧
    (s.cfg.symbols ≤ i.toNat → ∃ t, exec (.rdhh i) s = .next t ∧ FaultEntry .Q .bounds s t)

/-- A word that is no command of the port it arrives on raises IllegalCommand, on either port (R242, R243, D20), and the
pins then show `fault = 1` and `fault_cause = 2` (R240, R253, D22). When the clock presents a port Q word as well, the port
P word faults first, and the port Q word, whatever it is, is answered with the fault indication "without being decoded, and
`fault_cause` is the port P command's" (R244). -/
def Obligations.IllegalWordFaults : Prop :=
  ∀ (s : State) (w : Cmd) (e : DecodeError) (rest : List Clock), s.Running →
    (s.inputs = ⟨false, some w, none⟩ :: rest → decode .P w = .illegal e →
      ∃ t, step s = .next t ∧ FaultEntry .P .illegal { s with inputs := rest } t) ∧
    (s.inputs = ⟨false, none, some w⟩ :: rest → decode .Q w = .illegal e →
      ∃ t, step s = .next t ∧ FaultEntry .Q .illegal { s with inputs := rest } t) ∧
    ∀ v : Cmd, s.inputs = ⟨false, some w, some v⟩ :: rest → decode .P w = .illegal e →
      ∃ t u, step s = .next t ∧ FaultEntry .P .illegal { s with inputs := ⟨false, none, some v⟩ :: rest } t ∧
        step t = .next u ∧ u.block = t.block ∧ u.pins.faultCause = 2 ∧ u.cfg = s.cfg ∧ u.inputs = rest ∧
        Response.ShowsFault .Q u.out

/-- No port P command ever raises a fault, whatever the samples and the state: "No value of `s`, in any sequence, makes
TICK fault" (R133, R241). -/
def Obligations.ProducerCommandsNeverFault : Prop :=
  ∀ (s : State) (i : Instr), i.port = .P → s.Running →
    ∃ t second symbol frame, exec i s = .next t ∧ t.block.fault = false ∧
      t.block.faultCause = s.block.faultCause ∧ t.out = .onP second symbol frame false

/-- The halted state (R243, D14): "every command on either port, NOP included, changes no state and is answered with the
fault indication"; a word that is no command is answered so too and does not change the cause. Of two words in one clock
the port P word is answered first and the port Q word after it (R58, R244). -/
def Obligations.HaltedBlockOnlyAnswers : Prop :=
  ∀ s : State, s.Halted →
    (∀ i : Instr, ∃ t, exec i s = .next t ∧ t.block = s.block ∧ t.cfg = s.cfg ∧ t.inputs = s.inputs ∧
      Response.ShowsFault i.port t.out) ∧
    ∀ (w : Cmd) (rest : List Clock),
      (s.inputs = ⟨false, some w, none⟩ :: rest →
        ∃ t, step s = .next t ∧ t.block = s.block ∧ t.inputs = rest ∧ Response.ShowsFault .P t.out) ∧
      (s.inputs = ⟨false, none, some w⟩ :: rest →
        ∃ t, step s = .next t ∧ t.block = s.block ∧ t.inputs = rest ∧ Response.ShowsFault .Q t.out) ∧
      ∀ v : Cmd, s.inputs = ⟨false, some w, some v⟩ :: rest →
        ∃ t u, step s = .next t ∧ t.block = s.block ∧ t.inputs = ⟨false, none, some v⟩ :: rest ∧
          Response.ShowsFault .P t.out ∧
          step t = .next u ∧ u.block = s.block ∧ u.inputs = rest ∧ Response.ShowsFault .Q u.out

/-- "Only reset … leaves the halted state" (R243): however many steps follow without the reset input, the block stays
as the fault left it. -/
def Obligations.OnlyResetLeavesTheHaltedState : Prop :=
  ∀ (s : State) (n : Nat), s.Halted → s.NoReset →
    ∃ t, Host.Core.run core n s = .next t ∧ t.block = s.block

/-! ## The snapshot protocol -/

/-- "every state change is made by a sample-taking step and every such step changes `seq`" (R60): a step without reset
that does not raise a fault leaves the block as it was or counts one sample. -/
def Obligations.EveryChangeCountsASample : Prop :=
  ∀ s t : State, s.NoReset → step s = .next t → t.Running →
    t.block = s.block ∨ t.block.seq = s.block.seq + 1

/-- The guarantee of the snapshot protocol (R60): if `seq` is the same at two instants fewer than 2^32 steps apart, with
no reset and no fault between, then the block was the same at every instant between them. Fewer than 2^32 steps is at
most as many sample-taking steps; the width of `seq` is D17. -/
def Obligations.EqualSeqIsOneSnapshot : Prop :=
  ∀ (s t : State) (n : Nat), s.NoReset → n < 2 ^ 32 → Host.Core.run core n s = .next t → t.Running →
    t.block.seq = s.block.seq →
    ∀ m ≤ n, ∃ u, Host.Core.run core m s = .next u ∧ u.block = s.block

/-! ## The classifier -/

/-- The decision of the classifier (R142, R144), on the counts of the second just completed over
`[P1, P2)` and `[P2, P3)`, each taken over all its samples by their offset. -/
def Obligations.ClassifierDecides : Prop :=
  ∀ (p : Params) (raw : Ring), 2 ≤ p.subsec →
    ∀ countB countC lb lc : Nat,
      countB = (List.range p.subsec).countP (fun k =>
        raw.sample (p.buffer - p.subsec + k) && (500 + 200 * p.subsec) / 1000 ≤ k && k < (500 + 500 * p.subsec) / 1000) →
      countC = (List.range p.subsec).countP (fun k =>
        raw.sample (p.buffer - p.subsec + k) && (500 + 500 * p.subsec) / 1000 ≤ k && k < (500 + 800 * p.subsec) / 1000) →
      lb = (500 + 500 * p.subsec) / 1000 - (500 + 200 * p.subsec) / 1000 →
      lc = (500 + 800 * p.subsec) / 1000 - (500 + 500 * p.subsec) / 1000 →
      (2 * countC > lc → 2 * countB > lb → (classify p raw).sym = 2) ∧
      (2 * countC > lc → ¬(2 * countB > lb) → (classify p raw).sym = 3) ∧
      (¬(2 * countC > lc) → 2 * countB > lb → (classify p raw).sym = 1) ∧
      (¬(2 * countC > lc) → ¬(2 * countB > lb) → (classify p raw).sym = 0)

/-- "The score is the number of samples of the second that agree with the ideal waveform of the symbol decided. For an
Invalid result the score is 0" (R146, D10). -/
def Obligations.ScoreCountsAgreement : Prop :=
  ∀ (p : Params) (raw : Ring), 2 ≤ p.subsec →
    ((classify p raw).sym = 3 → (classify p raw).score = 0) ∧
    ((classify p raw).sym ≠ 3 →
      (classify p raw).score =
        (List.range p.subsec).countP fun k =>
          raw.sample (p.buffer - p.subsec + k) == idealReduced p (classify p raw).sym k)

/-- A clean second is recognised with the greatest score, at every `SUBSEC` at which the intervals B and C are not
empty (R149, R146). -/
def Obligations.CleanSecondsClassify : Prop :=
  ∀ (p : Params) (raw : Ring), 2 ≤ p.subsec → boundA p < boundB p → boundB p < boundC p →
    (SecondIs p raw (boundA p) → classify p raw = ⟨0, p.subsec⟩) ∧
    (SecondIs p raw (boundB p) → classify p raw = ⟨1, p.subsec⟩) ∧
    (SecondIs p raw (boundC p) → classify p raw = ⟨2, p.subsec⟩)

/-! ## The frame decoder -/

/-- The checks of a frame in their order, and nothing else rejects it (R163, R164, R173): the Marks first, then
the zeros, and no digit is looked at before both. The clauses for codes 3 to 5 follow R165, R167, R168 and the order of
R170, which D12 and D13 fix. -/
def Obligations.FrameChecksInOrder : Prop :=
  ∀ (policy : InvalidPolicy) (w : List Symbol),
    let at' := fun pos => (w.getD pos 0).toNat
    let marks := ∀ pos < 60, at' pos = 2 ↔ pos = 0 ∨ pos % 10 = 9
    let zeros := ∀ pos ∈ [4, 10, 11, 14, 20, 21, 24, 34, 35, 44, 54], at' pos = 0
    let clean := policy = .reject → ∀ pos < 60, at' pos ≠ 3
    let digits :=
      4 * at' 1 + 2 * at' 2 + at' 3 ≤ 9 ∧ 8 * at' 5 + 4 * at' 6 + 2 * at' 7 + at' 8 ≤ 9 ∧
      2 * at' 12 + at' 13 ≤ 9 ∧ 8 * at' 15 + 4 * at' 16 + 2 * at' 17 + at' 18 ≤ 9 ∧
      2 * at' 22 + at' 23 ≤ 9 ∧ 8 * at' 25 + 4 * at' 26 + 2 * at' 27 + at' 28 ≤ 9 ∧
      8 * at' 30 + 4 * at' 31 + 2 * at' 32 + at' 33 ≤ 9 ∧ 8 * at' 40 + 4 * at' 41 + 2 * at' 42 + at' 43 ≤ 9 ∧
      8 * at' 45 + 4 * at' 46 + 2 * at' 47 + at' 48 ≤ 9 ∧ 8 * at' 50 + 4 * at' 51 + 2 * at' 52 + at' 53 ≤ 9
    let sign := 4 * at' 36 + 2 * at' 37 + at' 38 = 5 ∨ 4 * at' 36 + 2 * at' 37 + at' 38 = 2
    (¬marks → decodeWindow policy w = .rejected .marks) ∧
    (marks → ¬zeros → decodeWindow policy w = .rejected .zeros) ∧
    (marks → zeros → ¬clean → decodeWindow policy w = .rejected .invalid) ∧
    (marks → zeros → clean → ¬digits → decodeWindow policy w = .rejected .digit) ∧
    (marks → zeros → clean → digits → ¬sign → decodeWindow policy w = .rejected .sign) ∧
    (marks → zeros → clean → digits → sign → ∃ r, decodeWindow policy w = .decoded r) ∧
    FrameError.marks.code = 1 ∧ FrameError.zeros.code = 2 ∧ FrameError.invalid.code = 3 ∧
    FrameError.digit.code = 4 ∧ FrameError.sign.code = 5

/-- The record of an accepted frame: every field by its positions and weights (R161, R166, R168, R169, R78). -/
def Obligations.FrameFields : Prop :=
  ∀ (policy : InvalidPolicy) (w : List Symbol) (r : CalRecord), decodeWindow policy w = .decoded r →
    let at' := fun pos => (w.getD pos 0).toNat
    let mag := 8 * at' 40 + 4 * at' 41 + 2 * at' 42 + at' 43
    r.year = 10 * (8 * at' 45 + 4 * at' 46 + 2 * at' 47 + at' 48) + (8 * at' 50 + 4 * at' 51 + 2 * at' 52 + at' 53) ∧
    r.yday = 100 * (2 * at' 22 + at' 23) + 10 * (8 * at' 25 + 4 * at' 26 + 2 * at' 27 + at' 28) +
      (8 * at' 30 + 4 * at' 31 + 2 * at' 32 + at' 33) ∧
    r.hour = 10 * (2 * at' 12 + at' 13) + (8 * at' 15 + 4 * at' 16 + 2 * at' 17 + at' 18) ∧
    r.minute = 10 * (4 * at' 1 + 2 * at' 2 + at' 3) + (8 * at' 5 + 4 * at' 6 + 2 * at' 7 + at' 8) ∧
    r.second = 0 ∧ r.ly = at' 55 ∧ r.ls = at' 56 ∧ r.dst = 2 * at' 57 + at' 58 ∧
    (4 * at' 36 + 2 * at' 37 + at' 38 = 5 → r.ut1 = (mag : Int)) ∧
    (4 * at' 36 + 2 * at' 37 + at' 38 = 2 → r.ut1 = -(mag : Int))

/-- The reachable ranges of a decoded record under the default policy (R171, D12). -/
def Obligations.FrameRanges : Prop :=
  ∀ (w : List Symbol) (r : CalRecord), decodeWindow .reject w = .decoded r → r.InFrameRange

/-! ## The calendar engine -/

/-- The length of a minute: 60, but 61 or 59 in the last minute of the last day of June or December when the leap-second
flag is set and the UT1 offset is negative or positive (R213, R214). The 60 seconds at an offset of 0 and the day numbers
of the two last days are the spec's decision D24, the day numbers from general knowledge. -/
def Obligations.MinuteLength : Prop :=
  ∀ t : CalRecord,
    let lastDay :=
      (LeapYear t.year → t.yday = 182 ∨ t.yday = 366) ∧ (¬LeapYear t.year → t.yday = 181 ∨ t.yday = 365)
    let leap := t.ls = 1 ∧ t.hour = 23 ∧ t.minute = 59 ∧ lastDay
    (leap → t.ut1 < 0 → secondsInMinute t = 61) ∧ (leap → 0 < t.ut1 → secondsInMinute t = 59) ∧
    (leap → t.ut1 = 0 → secondsInMinute t = 60) ∧ (¬leap → secondsInMinute t = 60)

/-- "The DST state moves only at a day rollover (the `hour >= 24` branch of rule R215) and only from 1 to 0 and from 2 to
3; states 0 and 3 persist"; the fixture of one `advance_seconds(1)` at 23:59:59, in a minute of 60 seconds; "The engine
never enters state 1 or 2 by itself" (R218). -/
def Obligations.DstMovesAtTheDayRollover : Prop :=
  ∀ (p : Params) (t : CalRecord),
    (t.hour ≤ 23 → t.minute ≤ 59 →
      (t.hour = 23 ∧ t.minute = 59 → t.dst = 1 → (advanceMinute p t).dst = 0) ∧
      (t.hour = 23 ∧ t.minute = 59 → t.dst = 2 → (advanceMinute p t).dst = 3) ∧
      (¬(t.hour = 23 ∧ t.minute = 59) ∨ (t.dst ≠ 1 ∧ t.dst ≠ 2) → (advanceMinute p t).dst = t.dst)) ∧
    (t.hour = 23 → t.minute = 59 → t.second = 59 → secondsInMinute t = 60 →
      (t.dst = 2 → (advanceSeconds p t 1).second = 0 ∧ (advanceSeconds p t 1).dst = 3) ∧
      (t.dst = 1 → (advanceSeconds p t 1).second = 0 ∧ (advanceSeconds p t 1).dst = 0)) ∧
    ∀ n state, state = 1 ∨ state = 2 →
      ((advanceMinutes p t n).dst = state → t.dst = state) ∧ ((advanceSeconds p t n).dst = state → t.dst = state)

/-- Every operation that advances a record keeps it well formed, with the default relaxation of 10 tenths
(R211, R225). -/
def Obligations.AdvancingKeepsWellFormed : Prop :=
  ∀ (p : Params) (t : CalRecord) (n : Nat), p.ut1Relax = 10 → t.WellFormed →
    (advanceMinutes p t n).WellFormed ∧ (advanceSeconds p t n).WellFormed

/-- "after `advance_seconds` from a well-formed record, `t.second < seconds_in_minute(t)`, so `second = 60` occurs only
when `seconds_in_minute(t) = 61`" (R225). -/
def Obligations.SecondsStayInTheirMinute : Prop :=
  ∀ (p : Params) (t : CalRecord) (n : Nat), t.WellFormed →
    (advanceSeconds p t n).second < secondsInMinute (advanceSeconds p t n) ∧
    ((advanceSeconds p t n).second = 60 → secondsInMinute (advanceSeconds p t n) = 61)

/-- "when `t.ls = 0` every minute has 60 seconds and an implementation may instead compute `q = t.second div 60`,
`t.second <- t.second mod 60`, `advance_minutes(t, q)` with the same result" (R216). -/
def Obligations.SecondsByDivision : Prop :=
  ∀ (p : Params) (t : CalRecord) (n : Nat), t.ls = 0 →
    advanceSeconds p t n =
      advanceMinutes p { t with second := (t.second + n) % 60 } ((t.second + n) / 60)

/-- Advancing by `m` and then by `n` seconds is advancing by `m + n` seconds, over leap seconds too (R216). -/
def Obligations.AdvancingSecondsAdds : Prop :=
  ∀ (p : Params) (t : CalRecord) (m n : Nat),
    advanceSeconds p (advanceSeconds p t m) n = advanceSeconds p t (m + n)

/-- A year has 366 days when it is a leap year of the 2000-based rule and else 365 (R212). A minute step moves the time of
a record on by one minute of UTC, over the ends of hours, days and leap or common years, and over a leap second, which UTC
does not count (R215, R219, R221); it does not touch the leap-year flag or the second (R215). What `year` does past 99,
and the epoch of UTC, are the spec's decision D24. -/
def Obligations.MinuteStepIsOneMinuteOfUtc : Prop :=
  (∀ year, (LeapYear year → daysInYear year = 366) ∧ (¬LeapYear year → daysInYear year = 365)) ∧
  ∀ (p : Params) (t : CalRecord),
    (t.WellFormed → toUtc (advanceMinute p t) = toUtc t + 60) ∧
    (advanceMinute p t).ly = t.ly ∧ (advanceMinute p t).second = t.second

/-- "`from_abs(to_utc(t))` returns the date and time fields of `t` for every well-formed `t` with `second ≤ 59`"
(R222). -/
def Obligations.FromAbsInvertsToUtc : Prop :=
  ∀ t : CalRecord, t.WellFormed → t.second ≤ 59 → fromAbs (toUtc t) = t.civil

/-- The leap-second fixture, step by step (R227). -/
def Obligations.LeapSecondFixture : Prop :=
  let t : CalRecord := ⟨0, 366, 23, 59, 59, 1, 1, 0, -4⟩
  secondsInMinute t = 61 ∧ advanceSeconds Params.default t 1 = { t with second := 60 } ∧
  advanceSeconds Params.default (advanceSeconds Params.default t 1) 1 = ⟨1, 1, 0, 0, 0, 1, 0, 0, 6⟩
end

