-- ==== Sys2Proof/Laws/Calendar.lean ====
section
/-! SUPPORT. Minute lengths, and the loop of `advance_seconds` (R214 to R217, R221, R222). -/

namespace Sys2Proof.Machine

theorem daysInYear_bounds (year : Nat) : 365 ≤ daysInYear year ∧ daysInYear year ≤ 366 := by
  unfold daysInYear; split <;> omega

/-- A minute has 59, 60 or 61 seconds (R214). -/
theorem secondsInMinute_bounds (t : CalRecord) : 59 ≤ secondsInMinute t ∧ secondsInMinute t ≤ 61 := by
  unfold secondsInMinute
  split
  · split
    · omega
    · split <;> omega
  · omega

/-- Without the leap-second flag a minute has 60 seconds (R214). -/
theorem secondsInMinute_of_ls {t : CalRecord} (h : t.ls = 0) : secondsInMinute t = 60 := by
  simp [secondsInMinute, leapMinute, h]

/-- A minute's length does not depend on the second (R214). -/
theorem secondsInMinute_second (t : CalRecord) (n : Nat) :
    secondsInMinute { t with second := n } = secondsInMinute t := rfl

/-- A minute step neither reads nor writes the second (R215). -/
theorem advanceMinute_with_second (p : Params) (t : CalRecord) (n : Nat) :
    advanceMinute p { t with second := n } = { advanceMinute p t with second := n } := by
  have settle : settleLeapSecond p { t with second := n } = { settleLeapSecond p t with second := n } := by
    unfold settleLeapSecond; rw [secondsInMinute_second]; split <;> rfl
  unfold advanceMinute
  rw [settle]
  unfold rollMinute
  dsimp only
  split
  · split
    · unfold rollDay; dsimp only; split <;> rfl
    · rfl
  · rfl

theorem advanceMinute_second (p : Params) (t : CalRecord) : (advanceMinute p t).second = t.second := by
  have h := congrArg CalRecord.second (advanceMinute_with_second p t t.second)
  exact h

/-- Fuel that covers the seconds is enough, so its amount does not matter. -/
theorem carrySeconds_fuel (p : Params) {f g : Nat} {t : CalRecord} (hf : t.second < 59 * f) (hg : t.second < 59 * g) :
    carrySeconds p f t = carrySeconds p g t := by
  induction f generalizing g t with
  | zero => omega
  | succ f ih =>
    cases g with
    | zero => omega
    | succ g =>
      simp only [carrySeconds]
      split
      · have len := secondsInMinute_bounds t
        apply ih <;> rw [advanceMinute_second] <;> dsimp only <;> omega
      · rfl

theorem carrySeconds_second_le (p : Params) (f : Nat) (t : CalRecord) : (carrySeconds p f t).second ≤ t.second := by
  induction f generalizing t with
  | zero => exact le_rfl
  | succ f ih =>
    simp only [carrySeconds]
    split
    · exact (ih _).trans (by rw [advanceMinute_second]; exact Nat.sub_le _ _)
    · exact le_rfl

/-- The loop ends inside a minute (R216, R225). -/
theorem carrySeconds_second_lt (p : Params) {f : Nat} {t : CalRecord} (h : t.second < 59 * f) :
    (carrySeconds p f t).second < secondsInMinute (carrySeconds p f t) := by
  induction f generalizing t with
  | zero => omega
  | succ f ih =>
    simp only [carrySeconds]
    split
    · have len := secondsInMinute_bounds t
      apply ih
      rw [advanceMinute_second]
      dsimp only
      omega
    · omega

end Sys2Proof.Machine
end

