-- ==== Sys2Proof/Laws/Rings.lean ====
section
/-! SUPPORT. What the ring operations do, said once: capacities, heads, and the contents by logical index after a put
(R50, R52, R100, R101, R110, R111). -/

namespace Sys2Proof.Machine

/-! ## Bits -/

@[simp] theorem Ring.bput_cap (r : Ring) (b : Bool) : (r.bput b).2.cap = r.cap := by
  simp [Ring.bput, Ring.cap, Ring.writeBit]

@[simp] theorem Ring.bput_bits_length (r : Ring) (b : Bool) : (r.bput b).2.bits.length = r.bits.length := by
  simp [Ring.bput, Ring.writeBit]

@[simp] theorem Ring.bput_head (r : Ring) (b : Bool) : (r.bput b).2.head = (r.head + 1) % r.cap := rfl

@[simp] theorem Ring.bput_evicted (r : Ring) (b : Bool) : (r.bput b).1 = r.readBit r.head := rfl

theorem Ring.bput_head_lt {r : Ring} (h : r.head < r.cap) (b : Bool) : (r.bput b).2.head < r.cap :=
  Nat.mod_lt _ (by omega)

@[simp] theorem Ring.zeros_cap (cap : Nat) : (Ring.zeros cap).cap = cap := by simp [Ring.zeros, Ring.cap]

@[simp] theorem Ring.zeros_head (cap : Nat) : (Ring.zeros cap).head = 0 := rfl

/-- A sample at a legal logical index is the bit at `(head + i) mod cap` (R52). -/
theorem Ring.sample_eq {r : Ring} {i : Nat} (h : i < r.cap) :
    r.sample i = r.bits.getD ((r.head + i) % r.cap) false := by
  simp [Ring.sample, Ring.bat, h, Ring.readBit]

/-- Every position of a zero ring reads 0 (R48). -/
@[simp] theorem Ring.sample_zeros (cap i : Nat) : (Ring.zeros cap).sample i = false := by
  unfold Ring.sample Ring.bat
  split
  · simp only [Option.getD_some, Ring.readBit, Ring.zeros, List.getD_eq_getElem?_getD,
      List.getElem?_replicate]
    split <;> rfl
  · rfl

/-- Outside its capacity a ring gives no sample. -/
theorem Ring.sample_of_le {r : Ring} {i : Nat} (h : r.cap ≤ i) : r.sample i = false := by
  simp [Ring.sample, Ring.bat, Nat.not_lt.mpr h]

/-- The evicted bit of a put is the oldest sample (R101). -/
theorem Ring.bput_evicted_eq_sample {r : Ring} (h : r.head < r.cap) (b : Bool) : (r.bput b).1 = r.sample 0 := by
  rw [Ring.sample_eq (by omega)]
  simp [Ring.readBit]

/-- The position of a legal index one further on, as seen from the advanced head. -/
theorem Ring.shift_position (n h i : Nat) :
    ((h + 1) % n + i) % n = (h + (i + 1)) % n := by
  rw [Nat.add_mod, Nat.mod_mod, ← Nat.add_mod]
  congr 1
  omega

/-- After a put the newest sample is the bit put, and every other index names what the next index named before
(R52, R101). -/
theorem Ring.sample_bput {r : Ring} (h : r.head < r.cap) (b : Bool) {i : Nat} (hi : i < r.cap) :
    (r.bput b).2.sample i = if i + 1 = r.cap then b else r.sample (i + 1) := by
  rw [Ring.sample_eq (by simpa using hi), Ring.bput_cap, Ring.bput_head, Ring.shift_position]
  have hcap : r.bits.length = r.cap := rfl
  by_cases hlast : i + 1 = r.cap
  · rw [if_pos hlast, hlast, Nat.add_mod_right, Nat.mod_eq_of_lt h]
    simp [Ring.bput, Ring.writeBit, Nat.mod_eq_of_lt h, hcap, h]
  · rw [if_neg hlast, Ring.sample_eq (by omega)]
    have hne : r.head ≠ (r.head + (i + 1)) % r.cap := by
      rcases Nat.lt_or_ge (r.head + (i + 1)) r.cap with hl | hg
      · rw [Nat.mod_eq_of_lt hl]; omega
      · rw [Nat.mod_eq_sub_mod hg, Nat.mod_eq_of_lt (by omega)]; omega
    simp [Ring.bput, Ring.writeBit, Nat.mod_eq_of_lt h, List.getD_eq_getElem?_getD, List.getElem?_set_ne hne]

/-! ## Symbols -/

@[simp] theorem Ring.sput_cap (r : Ring) (v : Symbol) : (r.sput v).2.cap = r.cap := by simp [Ring.sput]

@[simp] theorem Ring.sput_bits_length (r : Ring) (v : Symbol) : (r.sput v).2.bits.length = r.bits.length := by
  simp [Ring.sput]

/-- The head moves on by two bits (R24, R110). -/
@[simp] theorem Ring.sput_head (r : Ring) (v : Symbol) : (r.sput v).2.head = (r.head + 2) % r.cap := by
  simp [Ring.sput]

theorem Ring.sput_head_lt {r : Ring} (h : r.head < r.cap) (v : Symbol) : (r.sput v).2.head < r.cap := by
  rw [Ring.sput_head]; exact Nat.mod_lt _ (by omega)

/-- A symbol whose two bits are put back together is itself (R113). -/
theorem symbol_of_bits (v : Symbol) : BitVec.ofBool (v.getLsbD 1) ++ BitVec.ofBool (v.getLsbD 0) = v := by
  revert v; decide

theorem Ring.symbolAt_eq {r : Ring} {i : Nat} (h : i < r.cap / 2) :
    r.symbolAt i = BitVec.ofBool (r.sample (2 * i)) ++ BitVec.ofBool (r.sample (2 * i + 1)) := by
  simp [Ring.symbolAt, Ring.sat, h]

@[simp] theorem Ring.symbolAt_zeros (cap i : Nat) : (Ring.zeros cap).symbolAt i = 0 := by
  unfold Ring.symbolAt Ring.sat
  split
  · simp
  · rfl

/-- After two puts every index names what stood two further on. -/
theorem Ring.sample_bput_bput {r : Ring} (h : r.head < r.cap) (b c : Bool) {i : Nat} (hi : i < r.cap) :
    ((r.bput b).2.bput c).2.sample i =
      if i + 1 = r.cap then c else if i + 2 = r.cap then b else r.sample (i + 2) := by
  rw [Ring.sample_bput (by simpa using Ring.bput_head_lt h b) c (by simpa using hi), Ring.bput_cap]
  split
  · rfl
  · rw [Ring.sample_bput h b (by omega)]

/-- After a push the newest symbol is the symbol pushed, and every other index names what the next index named before
(R111, R113). -/
theorem Ring.symbolAt_sput {r : Ring} (h : r.head < r.cap) (heven : r.cap % 2 = 0) (v : Symbol) {i : Nat}
    (hi : i < r.cap / 2) : (r.sput v).2.symbolAt i = if i + 1 = r.cap / 2 then v else r.symbolAt (i + 1) := by
  rw [Ring.symbolAt_eq (by simpa using hi)]
  have h0 : 2 * i < r.cap := by omega
  have h1 : 2 * i + 1 < r.cap := by omega
  simp only [Ring.sput, Ring.sample_bput_bput h _ _ h0, Ring.sample_bput_bput h _ _ h1]
  by_cases hlast : i + 1 = r.cap / 2
  · rw [if_neg (by omega), if_pos (by omega), if_pos (by omega), if_pos hlast, symbol_of_bits]
  · rw [if_neg (by omega), if_neg (by omega), if_neg (by omega), if_neg (by omega), if_neg hlast,
      Ring.symbolAt_eq (by omega)]
    congr 2

/-- SAT is one read of two adjacent bits: `MemRead(sring, sring.head + 2*i, 2)` (R111). -/
theorem Ring.sat_eq_memRead {r : Ring} {i : Nat} (h : i < r.cap / 2) :
    r.sat i = some (r.memRead (r.head + 2 * i) 2) := by
  have h0 : 2 * i < r.cap := by omega
  have h1 : 2 * i + 1 < r.cap := by omega
  have e0 : r.sample (2 * i) = r.readBit (r.head + 2 * i) := by simp [Ring.sample, Ring.bat, h0]
  have e1 : r.sample (2 * i + 1) = r.readBit (r.head + 2 * i + 1) := by simp [Ring.sample, Ring.bat, h1, Nat.add_assoc]
  simp only [Ring.sat, h, if_true, e0, e1, Ring.memRead, Nat.add_zero]
  generalize r.readBit (r.head + 2 * i) = x
  generalize r.readBit (r.head + 2 * i + 1) = y
  revert x y; decide

end Sys2Proof.Machine
end

