-- ==== Sys2Proof/Laws/Tracker.lean ====
section
/-! SUPPORT. One lemma per field of the block per part of TICK, the cases of TICK said once, and the bounds of the
classifier (R121 to R128, R140 to R147). -/

namespace Sys2Proof.Machine

/-! ### `track` -/

@[simp] theorem track_raw (p : Params) (smp : Bool) (b : Block) : (track p smp b).raw = (b.raw.bput smp).2 := rfl

@[simp] theorem track_sring (p : Params) (smp : Bool) (b : Block) : (track p smp b).sring = b.sring := rfl

@[simp] theorem track_counts (p : Params) (smp : Bool) (b : Block) : (track p smp b).counts = nextCounts smp b := rfl

@[simp] theorem track_edges (p : Params) (smp : Bool) (b : Block) : (track p smp b).edges = nextEdges p smp b := rfl

@[simp] theorem track_healthHistory (p : Params) (smp : Bool) (b : Block) : (track p smp b).healthHistory = b.healthHistory := rfl

@[simp] theorem track_subsec (p : Params) (smp : Bool) (b : Block) : (track p smp b).subsec = (b.subsec + 1) % p.subsec := rfl

@[simp] theorem track_sos (p : Params) (smp : Bool) (b : Block) : (track p smp b).sos = nextSos p (nextEdges p smp b) b.sos := rfl

@[simp] theorem track_tss (p : Params) (smp : Bool) (b : Block) : (track p smp b).tss = b.tss := rfl

@[simp] theorem track_health (p : Params) (smp : Bool) (b : Block) : (track p smp b).health = b.health := rfl

@[simp] theorem track_seq (p : Params) (smp : Bool) (b : Block) : (track p smp b).seq = b.seq + 1 := rfl

@[simp] theorem track_newSecond (p : Params) (smp : Bool) (b : Block) : (track p smp b).newSecond = b.newSecond := rfl

@[simp] theorem track_lastSym (p : Params) (smp : Bool) (b : Block) : (track p smp b).lastSym = b.lastSym := rfl

@[simp] theorem track_record (p : Params) (smp : Bool) (b : Block) : (track p smp b).record = b.record := rfl

@[simp] theorem track_recValid (p : Params) (smp : Bool) (b : Block) : (track p smp b).recValid = b.recValid := rfl

@[simp] theorem track_ferr (p : Params) (smp : Bool) (b : Block) : (track p smp b).ferr = b.ferr := rfl

@[simp] theorem track_frames (p : Params) (smp : Bool) (b : Block) : (track p smp b).frames = b.frames := rfl

@[simp] theorem track_fault (p : Params) (smp : Bool) (b : Block) : (track p smp b).fault = b.fault := rfl

@[simp] theorem track_faultCause (p : Params) (smp : Bool) (b : Block) : (track p smp b).faultCause = b.faultCause := rfl

/-! ### `passSecond` -/

@[simp] theorem passSecond_raw (b : Block) : (passSecond b).raw = b.raw := rfl

@[simp] theorem passSecond_sring (b : Block) : (passSecond b).sring = b.sring := rfl

@[simp] theorem passSecond_counts (b : Block) : (passSecond b).counts = b.counts := rfl

@[simp] theorem passSecond_edges (b : Block) : (passSecond b).edges = b.edges := rfl

@[simp] theorem passSecond_healthHistory (b : Block) : (passSecond b).healthHistory = b.healthHistory := rfl

@[simp] theorem passSecond_subsec (b : Block) : (passSecond b).subsec = b.subsec := rfl

@[simp] theorem passSecond_sos (b : Block) : (passSecond b).sos = b.sos := rfl

@[simp] theorem passSecond_tss (b : Block) : (passSecond b).tss = b.tss + 1 := rfl

@[simp] theorem passSecond_health (b : Block) : (passSecond b).health = b.health := rfl

@[simp] theorem passSecond_seq (b : Block) : (passSecond b).seq = b.seq := rfl

@[simp] theorem passSecond_newSecond (b : Block) : (passSecond b).newSecond = false := rfl

@[simp] theorem passSecond_lastSym (b : Block) : (passSecond b).lastSym = b.lastSym := rfl

@[simp] theorem passSecond_record (b : Block) : (passSecond b).record = b.record := rfl

@[simp] theorem passSecond_recValid (b : Block) : (passSecond b).recValid = b.recValid := rfl

@[simp] theorem passSecond_ferr (b : Block) : (passSecond b).ferr = b.ferr := rfl

@[simp] theorem passSecond_frames (b : Block) : (passSecond b).frames = b.frames := rfl

@[simp] theorem passSecond_fault (b : Block) : (passSecond b).fault = b.fault := rfl

@[simp] theorem passSecond_faultCause (b : Block) : (passSecond b).faultCause = b.faultCause := rfl

/-! ### `closeSecond` -/

@[simp] theorem closeSecond_raw (p : Params) (b : Block) : (closeSecond p b).raw = b.raw := rfl

@[simp] theorem closeSecond_sring (p : Params) (b : Block) : (closeSecond p b).sring = (b.sring.sput (classify p b.raw).sym).2 := rfl

@[simp] theorem closeSecond_counts (p : Params) (b : Block) : (closeSecond p b).counts = b.counts := rfl

@[simp] theorem closeSecond_edges (p : Params) (b : Block) : (closeSecond p b).edges = b.edges := rfl

@[simp] theorem closeSecond_healthHistory (p : Params) (b : Block) : (closeSecond p b).healthHistory = 
      b.healthHistory.set b.sring.slot (classify p b.raw).score := rfl

@[simp] theorem closeSecond_subsec (p : Params) (b : Block) : (closeSecond p b).subsec = b.subsec := rfl

@[simp] theorem closeSecond_sos (p : Params) (b : Block) : (closeSecond p b).sos = b.sos := rfl

@[simp] theorem closeSecond_tss (p : Params) (b : Block) : (closeSecond p b).tss = 0 := rfl

@[simp] theorem closeSecond_health (p : Params) (b : Block) : (closeSecond p b).health = 
      b.health + (classify p b.raw).score - b.healthHistory.getD b.sring.slot 0 := rfl

@[simp] theorem closeSecond_seq (p : Params) (b : Block) : (closeSecond p b).seq = b.seq := rfl

@[simp] theorem closeSecond_newSecond (p : Params) (b : Block) : (closeSecond p b).newSecond = true := rfl

@[simp] theorem closeSecond_lastSym (p : Params) (b : Block) : (closeSecond p b).lastSym = (classify p b.raw).sym := rfl

@[simp] theorem closeSecond_record (p : Params) (b : Block) : (closeSecond p b).record = b.record := rfl

@[simp] theorem closeSecond_recValid (p : Params) (b : Block) : (closeSecond p b).recValid = b.recValid := rfl

@[simp] theorem closeSecond_ferr (p : Params) (b : Block) : (closeSecond p b).ferr = b.ferr := rfl

@[simp] theorem closeSecond_frames (p : Params) (b : Block) : (closeSecond p b).frames = b.frames := rfl

@[simp] theorem closeSecond_fault (p : Params) (b : Block) : (closeSecond p b).fault = b.fault := rfl

@[simp] theorem closeSecond_faultCause (p : Params) (b : Block) : (closeSecond p b).faultCause = b.faultCause := rfl

/-! ### `latchFrame` -/

@[simp] theorem latchFrame_raw (res : FrameResult) (b : Block) : (latchFrame res b).raw = b.raw := by cases res <;> rfl

@[simp] theorem latchFrame_sring (res : FrameResult) (b : Block) : (latchFrame res b).sring = b.sring := by cases res <;> rfl

@[simp] theorem latchFrame_counts (res : FrameResult) (b : Block) : (latchFrame res b).counts = b.counts := by cases res <;> rfl

@[simp] theorem latchFrame_edges (res : FrameResult) (b : Block) : (latchFrame res b).edges = b.edges := by cases res <;> rfl

@[simp] theorem latchFrame_healthHistory (res : FrameResult) (b : Block) : (latchFrame res b).healthHistory = b.healthHistory := by cases res <;> rfl

@[simp] theorem latchFrame_subsec (res : FrameResult) (b : Block) : (latchFrame res b).subsec = b.subsec := by cases res <;> rfl

@[simp] theorem latchFrame_sos (res : FrameResult) (b : Block) : (latchFrame res b).sos = b.sos := by cases res <;> rfl

@[simp] theorem latchFrame_tss (res : FrameResult) (b : Block) : (latchFrame res b).tss = b.tss := by cases res <;> rfl

@[simp] theorem latchFrame_health (res : FrameResult) (b : Block) : (latchFrame res b).health = b.health := by cases res <;> rfl

@[simp] theorem latchFrame_seq (res : FrameResult) (b : Block) : (latchFrame res b).seq = b.seq := by cases res <;> rfl

@[simp] theorem latchFrame_newSecond (res : FrameResult) (b : Block) : (latchFrame res b).newSecond = b.newSecond := by cases res <;> rfl

@[simp] theorem latchFrame_lastSym (res : FrameResult) (b : Block) : (latchFrame res b).lastSym = b.lastSym := by cases res <;> rfl

@[simp] theorem latchFrame_fault (res : FrameResult) (b : Block) : (latchFrame res b).fault = b.fault := by cases res <;> rfl

@[simp] theorem latchFrame_faultCause (res : FrameResult) (b : Block) : (latchFrame res b).faultCause = b.faultCause := by cases res <;> rfl

/-! ### The cases of TICK -/

/-- What TICK can do, said once: no boundary; a boundary whose symbol is not a Mark; a boundary that completes a Mark
and so attempts a frame decode (R121). -/
theorem tick_cases (p : Params) (smp : Bool) (b : Block) :
    (boundaryOf p b.sos (track p smp b) = false ∧
      tick p smp b = (passSecond (track p smp b), ⟨false, b.lastSym, false⟩)) ∨
    (boundaryOf p b.sos (track p smp b) = true ∧ (closeSecond p (track p smp b)).lastSym ≠ symMark ∧
      tick p smp b = (closeSecond p (track p smp b), ⟨true, (closeSecond p (track p smp b)).lastSym, false⟩)) ∨
    (boundaryOf p b.sos (track p smp b) = true ∧ (closeSecond p (track p smp b)).lastSym = symMark ∧
      tick p smp b =
        (latchFrame (fdecode p (closeSecond p (track p smp b)).sring) (closeSecond p (track p smp b)),
          ⟨true, (closeSecond p (track p smp b)).lastSym,
            frameLatched (fdecode p (closeSecond p (track p smp b)).sring)⟩)) := by
  unfold tick attemptFrame
  cases hb : boundaryOf p b.sos (track p smp b)
  · exact .inl ⟨rfl, by simp⟩
  · by_cases hm : (closeSecond p (track p smp b)).lastSym = symMark
    · exact .inr (.inr ⟨rfl, hm, by rw [if_pos rfl, if_pos hm]⟩)
    · exact .inr (.inl ⟨rfl, hm, by rw [if_pos rfl, if_neg hm]⟩)

/-- A property of the block that steps 1 to 5, either half of step 7 and the latching of a frame each give holds after
TICK. -/
theorem tick_induct {P : Block → Prop} (p : Params) (smp : Bool) (b : Block)
    (pass : P (passSecond (track p smp b))) (close : P (closeSecond p (track p smp b)))
    (latch : ∀ res, P (closeSecond p (track p smp b)) → P (latchFrame res (closeSecond p (track p smp b)))) :
    P (tick p smp b).1 := by
  rcases tick_cases p smp b with ⟨-, h⟩ | ⟨-, -, h⟩ | ⟨-, -, h⟩ <;> rw [h]
  · exact pass
  · exact close
  · exact latch _ close

/-! ### What every TICK does to the fields of steps 1 to 5, boundary or not -/

@[simp] theorem tick_raw (p : Params) (smp : Bool) (b : Block) : (tick p smp b).1.raw = (b.raw.bput smp).2 :=
  tick_induct p smp b (P := fun t => t.raw = _) rfl rfl fun _ _ => by simp

@[simp] theorem tick_counts (p : Params) (smp : Bool) (b : Block) : (tick p smp b).1.counts = nextCounts smp b :=
  tick_induct p smp b (P := fun t => t.counts = _) rfl rfl fun _ _ => by simp

@[simp] theorem tick_edges (p : Params) (smp : Bool) (b : Block) : (tick p smp b).1.edges = nextEdges p smp b :=
  tick_induct p smp b (P := fun t => t.edges = _) rfl rfl fun _ _ => by simp

@[simp] theorem tick_sos (p : Params) (smp : Bool) (b : Block) :
    (tick p smp b).1.sos = nextSos p (nextEdges p smp b) b.sos :=
  tick_induct p smp b (P := fun t => t.sos = _) rfl rfl fun _ _ => by simp

@[simp] theorem tick_subsec (p : Params) (smp : Bool) (b : Block) :
    (tick p smp b).1.subsec = (b.subsec + 1) % p.subsec :=
  tick_induct p smp b (P := fun t => t.subsec = _) rfl rfl fun _ _ => by simp

@[simp] theorem tick_seq (p : Params) (smp : Bool) (b : Block) : (tick p smp b).1.seq = b.seq + 1 :=
  tick_induct p smp b (P := fun t => t.seq = _) rfl rfl fun _ _ => by simp

@[simp] theorem tick_fault (p : Params) (smp : Bool) (b : Block) : (tick p smp b).1.fault = b.fault :=
  tick_induct p smp b (P := fun t => t.fault = _) rfl rfl fun _ _ => by simp

@[simp] theorem tick_faultCause (p : Params) (smp : Bool) (b : Block) : (tick p smp b).1.faultCause = b.faultCause :=
  tick_induct p smp b (P := fun t => t.faultCause = _) rfl rfl fun _ _ => by simp

@[simp] theorem tick_newSecond (p : Params) (smp : Bool) (b : Block) :
    (tick p smp b).1.newSecond = boundaryOf p b.sos (track p smp b) := by
  rcases tick_cases p smp b with ⟨hb, h⟩ | ⟨hb, -, h⟩ | ⟨hb, -, h⟩ <;> rw [h, hb] <;> simp

/-- Step 6 read as a condition (R126). -/
theorem declares_iff (p : Params) (tss subsec sos prevSos : Nat) :
    declares p tss subsec sos prevSos = true ↔
      p.forceTss < tss ∨ (p.subsec < 2 * tss ∧ (subsec = sos ∨ subsec = prevSos)) := by
  unfold declares
  split
  · simp [*]
  · split <;> simp [*]

/-- A boundary is declared only when the last one is far enough back (R126). -/
theorem boundaryOf_track_iff (p : Params) (smp : Bool) (b : Block) :
    boundaryOf p b.sos (track p smp b) = true ↔
      p.forceTss < b.tss ∨ (p.subsec < 2 * b.tss ∧
        ((track p smp b).subsec = (track p smp b).sos ∨ (track p smp b).subsec = b.sos)) :=
  declares_iff ..

/-! ### The classifier -/

theorem boundA_le_boundB (p : Params) : boundA p ≤ boundB p := by unfold boundA boundB bucketOf; omega

theorem boundB_le_boundC (p : Params) : boundB p ≤ boundC p := by unfold boundB boundC bucketOf; omega

theorem boundC_le_subsec {p : Params} (h : 2 ≤ p.subsec) : boundC p ≤ p.subsec := by unfold boundC bucketOf; omega

/-- A count of an interval is at most its length. -/
theorem reducedIn_le (p : Params) (raw : Ring) (lo hi : Nat) : reducedIn p raw lo hi ≤ hi - lo := by
  unfold reducedIn
  exact List.countP_le_length.trans (by simp)

theorem intervalScore_le {expect : Bool} {length count : Nat} (h : count ≤ length) :
    intervalScore expect length count ≤ length := by
  unfold intervalScore; split <;> omega

/-- A slot score is in `[0, SUBSEC]` (R142, R146). -/
theorem classify_score_le {p : Params} (h : 2 ≤ p.subsec) (raw : Ring) : (classify p raw).score ≤ p.subsec := by
  have hA := boundA_le_boundB p
  have hB := boundB_le_boundC p
  have hC := boundC_le_subsec h
  simp only [classify, slotScore]
  split
  · omega
  · have a := intervalScore_le (expect := true) (reducedIn_le p raw 0 (boundA p))
    have b := fun e => intervalScore_le (expect := e) (reducedIn_le p raw (boundA p) (boundB p))
    have c := fun e => intervalScore_le (expect := e) (reducedIn_le p raw (boundB p) (boundC p))
    have d := intervalScore_le (expect := false) (reducedIn_le p raw (boundC p) p.subsec)
    refine (Nat.add_le_add (Nat.add_le_add (Nat.add_le_add a (b _)) (c _)) d).trans ?_
    omega

end Sys2Proof.Machine
end

