-- ==== Sys2Proof/Laws/Classifier.lean ====
section
/-! SUPPORT. The intervals of the classifier and what is counted in them (R140 to R146). -/

namespace Sys2Proof.Machine

/-- A second cut at two points. -/
theorem range_cut {lo hi n : Nat} (hl : lo ≤ hi) (hn : hi ≤ n) :
    List.range n = List.range' 0 lo ++ (List.range' lo (hi - lo) ++ List.range' hi (n - hi)) := by
  have e1 := List.range'_append_1 (s := lo) (m := hi - lo) (n := n - hi)
  rw [show lo + (hi - lo) = hi by omega] at e1
  have e2 := List.range'_append_1 (s := 0) (m := lo) (n := hi - lo + (n - hi))
  rw [Nat.zero_add] at e2
  rw [e1, e2, List.range_eq_range']
  congr 1
  omega

/-- The count of an interval is the count over the whole second of the samples whose offset lies in it (R141, R142). -/
theorem countP_interval (p : Params) (raw : Ring) {lo hi : Nat} (hl : lo ≤ hi) (hh : hi ≤ p.subsec) :
    (List.range p.subsec).countP
      (fun k => raw.sample (p.buffer - p.subsec + k) && decide (lo ≤ k) && decide (k < hi)) =
      reducedIn p raw lo hi := by
  rw [range_cut hl hh, List.countP_append, List.countP_append, reducedIn]
  have before : (List.range' 0 lo).countP
      (fun k => raw.sample (p.buffer - p.subsec + k) && decide (lo ≤ k) && decide (k < hi)) = 0 := by
    rw [List.countP_eq_zero]
    intro k hk
    rw [List.mem_range'_1] at hk
    simp; omega
  have after : (List.range' hi (p.subsec - hi)).countP
      (fun k => raw.sample (p.buffer - p.subsec + k) && decide (lo ≤ k) && decide (k < hi)) = 0 := by
    rw [List.countP_eq_zero]
    intro k hk
    rw [List.mem_range'_1] at hk
    simp; omega
  have within : (List.range' lo (hi - lo)).countP
      (fun k => raw.sample (p.buffer - p.subsec + k) && decide (lo ≤ k) && decide (k < hi)) =
      (List.range' lo (hi - lo)).countP (fun k => raw.sample (p.buffer - p.subsec + k)) := by
    apply List.countP_congr
    intro k hk
    rw [List.mem_range'_1] at hk
    simp [show lo ≤ k by omega, show k < hi by omega]
  omega

/-- A second that is `ones` reduced samples and then full ones: an interval before `ones` is all reduced, an interval
after it not at all. -/
theorem reducedIn_secondIs {p : Params} {raw : Ring} {ones : Nat} (hs : SecondIs p raw ones) {lo hi : Nat}
    (hh : hi ≤ p.subsec) :
    (hi ≤ ones → reducedIn p raw lo hi = hi - lo) ∧ (ones ≤ lo → reducedIn p raw lo hi = 0) := by
  unfold reducedIn
  constructor <;> intro ho
  · have all : (List.range' lo (hi - lo)).countP (fun k => raw.sample (p.buffer - p.subsec + k)) =
        (List.range' lo (hi - lo)).length := by
      rw [List.countP_eq_length]
      intro k hk
      rw [List.mem_range'_1] at hk
      rw [hs k (by omega)]
      simp; omega
    rw [all, List.length_range']
  · rw [List.countP_eq_zero]
    intro k hk
    rw [List.mem_range'_1] at hk
    rw [hs k (by omega)]
    simp; omega

/-- An interval's score counts the samples that are what the interval expects (R146). -/
theorem intervalScore_eq_countP (p : Params) (raw : Ring) (lo hi : Nat) (expect : Bool) :
    intervalScore expect (hi - lo) (reducedIn p raw lo hi) =
      (List.range' lo (hi - lo)).countP (fun k => raw.sample (p.buffer - p.subsec + k) == expect) := by
  rw [reducedIn, intervalScore]
  cases expect
  · have len := List.length_eq_countP_add_countP (fun k => raw.sample (p.buffer - p.subsec + k))
      (l := List.range' lo (hi - lo))
    rw [List.length_range'] at len
    have neg : (List.range' lo (hi - lo)).countP (fun k => raw.sample (p.buffer - p.subsec + k) == false) =
        (List.range' lo (hi - lo)).countP (fun k => decide ¬raw.sample (p.buffer - p.subsec + k) = true) := by
      apply List.countP_congr
      intro k _
      simp
    simp only [Bool.false_eq_true, if_false]
    omega
  · simp

end Sys2Proof.Machine
end

