-- ==== Sys2Proof/Laws/Decode.lean ====
section
/-! SUPPORT. The fields of a word and the tables read both ways (R80, R81, R195, R177): what the decoder and the
encoder lemmas rest on. -/

namespace Sys2Proof

/-- The high field of two fields put together. -/
theorem extract_append_high {n m : Nat} (a : BitVec n) (b : BitVec m) : (a ++ b).extractLsb' m n = a := by
  ext i hi
  simp [BitVec.getLsbD_append, hi]

/-- The low field of two fields put together. -/
theorem extract_append_low {n m : Nat} (a : BitVec n) (b : BitVec m) : (a ++ b).extractLsb' 0 m = b := by
  ext i hi
  simp [BitVec.getLsbD_append, hi]

/-- A word is its two fields put together. -/
theorem append_extract {n m : Nat} (w : BitVec (n + m)) : w.extractLsb' m n ++ w.extractLsb' 0 m = w := by
  ext i hi
  simp only [BitVec.getElem_append, BitVec.getElem_extractLsb', Nat.zero_add]
  split
  · exact BitVec.getLsbD_eq_getElem hi
  · rw [show m + (i - m) = i by omega]
    exact BitVec.getLsbD_eq_getElem hi

@[simp] theorem opField_append (a : BitVec 4) (b : BitVec 12) : opField (a ++ b) = a := extract_append_high a b

@[simp] theorem argField_append (a : BitVec 4) (b : BitVec 12) : argField (a ++ b) = b := extract_append_low a b

/-- A command word is its opcode and its argument (R80). -/
theorem fields_append (w : Cmd) : opField w ++ argField w = w := append_extract (n := 4) (m := 12) w

@[simp] theorem ofBits_bits (op : Opcode) : Opcode.ofBits op.bits = some op := by cases op <;> rfl

/-- The opcode map is the same read either way (R80). -/
theorem bits_of_ofBits {b : BitVec 4} {op : Opcode} (h : Opcode.ofBits b = some op) : op.bits = b := by
  have all : ∀ b : BitVec 4, ∀ op ∈ Opcode.ofBits b, op.bits = b := by decide
  exact all b op h

/-- The register map assigns exactly the numbers of the opcode table's note (R195). -/
theorem ofNumber_isSome (r : BitVec 8) : (Reg.ofNumber r).isSome = assignedRegister r := by
  revert r; decide

/-- Every register is found under its number (R195). -/
theorem ofNumber_number (g : Reg) : Reg.ofNumber g.number = some g := by
  cases g with
  | record f => cases f <;> rfl
  | _ => rfl

/-- Selectors 0 to 9 are assigned and no others (R177, R94). -/
theorem ofSelector_isSome (k : BitVec 4) : (Selector.ofBits k).isSome = assignedSelector k := by
  revert k; decide

/-- Decoding an encoded opcode and argument comes to the format's own checks. -/
theorem decode_append {op : Opcode} {port : Port} (h : op.accepted port = true) (arg : BitVec 12) :
    decode port (op.bits ++ arg) = decodeArg op port arg := by
  simp [decode, h]

/-- A word that decodes has an assigned opcode that its port accepts. -/
theorem decode_command {port : Port} {w : Cmd} {i : Instr} (h : decode port w = .command i) :
    ∃ op, Opcode.ofBits (opField w) = some op ∧ op.accepted port = true ∧
      decodeArg op port (argField w) = .command i := by
  unfold decode at h
  split at h
  · cases h
  · rename_i op hop
    split at h
    · exact ⟨op, hop, ‹_›, h⟩
    · cases h

/-- A word that decodes is a command of the port it arrived on (R83). -/
theorem decode_port {port : Port} {w : Cmd} {i : Instr} (h : decode port w = .command i) : i.port = port := by
  obtain ⟨op, -, hacc, harg⟩ := decode_command h
  cases op <;> simp only [decodeArg] at harg <;> (repeat' split at harg) <;> cases harg <;>
    first | rfl | (cases port <;> first | rfl | cases hacc)

end Sys2Proof
end

