-- ==== Sys2Proof/Laws/Memory.lean ====
section
/-! SUPPORT. Every operation on the memories keeps their form (`Memory.wf`), and reset has it (R20, R50, R65). -/

namespace Sys2Proof.Machine

theorem legal_subsec_pos {p : Params} (h : p.Legal) : 0 < p.subsec := by have := h.1; omega

theorem legal_buffer_pos {p : Params} (h : p.Legal) : 0 < p.buffer :=
  Nat.mul_pos (legal_subsec_pos h) (by have := h.2.2.1; omega)

theorem legal_symbols_pos {p : Params} (h : p.Legal) : 0 < p.symbols := by
  have := h.2.2.2.2.1; omega

theorem reset_wf {p : Params} (h : p.Legal) : Memory.wf p (Block.reset p) := by
  have hb := legal_buffer_pos h
  have hs := legal_symbols_pos h
  simpa [Memory.wf, Block.reset, Ring.zeros] using ⟨hb, hs⟩

@[simp] theorem nextCounts_length (smp : Bool) (b : Block) : (nextCounts smp b).length = b.counts.length := by
  simp [nextCounts]

@[simp] theorem nextEdges_length (p : Params) (smp : Bool) (b : Block) :
    (nextEdges p smp b).length = b.edges.length := by
  simp [nextEdges]

theorem track_wf {p : Params} {b : Block} (h : Memory.wf p b) (smp : Bool) : Memory.wf p (track p smp b) := by
  obtain ⟨h1, h2, h3, h4, h5, h6, h7⟩ := h
  refine ⟨by simpa using h1, ?_, h3, h4, by simpa using h5, by simpa using h6, h7⟩
  have := Ring.bput_head_lt (r := b.raw) (by rw [Ring.cap, h1]; exact h2) smp
  rwa [Ring.cap, h1] at this

theorem passSecond_wf {p : Params} {b : Block} (h : Memory.wf p b) : Memory.wf p (passSecond b) := h

theorem closeSecond_wf {p : Params} {b : Block} (h : Memory.wf p b) : Memory.wf p (closeSecond p b) := by
  obtain ⟨h1, h2, h3, h4, h5, h6, h7⟩ := h
  refine ⟨h1, h2, by simpa using h3, ?_, h5, h6, by simpa using h7⟩
  have := Ring.sput_head_lt (r := b.sring) (by rw [Ring.cap, h3]; exact h4) (classify p b.raw).sym
  rwa [Ring.cap, h3] at this

theorem latchFrame_wf {p : Params} {b : Block} (h : Memory.wf p b) (res : FrameResult) :
    Memory.wf p (latchFrame res b) := by
  cases res <;> exact h

/-- TICK keeps the form of the memories; it is the only command that writes them (R21, R26, R28, R33). -/
theorem tick_wf {p : Params} {b : Block} (h : Memory.wf p b) (smp : Bool) : Memory.wf p (tick p smp b).1 :=
  tick_induct p smp b (passSecond_wf (track_wf h smp)) (closeSecond_wf (track_wf h smp))
    fun res hc => latchFrame_wf hc res

end Sys2Proof.Machine
end

