-- ==== Sys2Proof/Laws/PerInstr.lean ====
section
/-! SUPPORT. Statements made per instruction: the word of a well-formed command fits its row of the table of R85. -/

namespace Sys2Proof.Laws.TableFit

/-- "a word `w` is the command iff `w & mask == match`" (R85): the encoder's word meets the mask and match of its row. -/
def Statement (i : Instr) : Prop := i.wellFormed = true → i.opcode.row.fits (encode i) = true

/-- A word meets a row that masks the opcode alone, whatever its argument is (format I, R81). -/
theorem fits_of_opcode_row (op : BitVec 4) (arg : BitVec 12) :
    TableRow.fits ⟨op ++ 0#12, 0xF000⟩ (op ++ arg) = true := by
  have hmask : (0xF000#16 : BitVec 16) = BitVec.allOnes 4 ++ 0#12 := rfl
  have hand : (op ++ arg) &&& (BitVec.allOnes 4 ++ 0#12) = op ++ 0#12 := by
    ext k hk
    simp only [BitVec.getElem_and, BitVec.getElem_append]
    split
    · simp
    · rw [BitVec.getElem_allOnes, Bool.and_true]
  simpa [TableRow.fits, hmask] using hand

theorem nop (port : Port) : Statement (.nop port) := fun _ => by cases port <;> decide

theorem tick (s : Bool) : Statement (.tick s) := fun _ => by revert s; decide

theorem tickc (c : BitVec 8) : Statement (.tickc c) := fun _ => by revert c; decide

theorem rdbit (i : BitVec 12) : Statement (.rdbit i) := fun _ => fits_of_opcode_row 0x8 i

theorem rdsym (i : BitVec 12) : Statement (.rdsym i) := fun _ => fits_of_opcode_row 0x9 i

theorem rdcnt (i : BitVec 12) : Statement (.rdcnt i) := fun _ => fits_of_opcode_row 0xA i

theorem rdedge (i : BitVec 12) : Statement (.rdedge i) := fun _ => fits_of_opcode_row 0xB i

theorem rdhh (i : BitVec 12) : Statement (.rdhh i) := fun _ => fits_of_opcode_row 0xC i

theorem rdreg (r : BitVec 8) : Statement (.rdreg r) := fun _ => by revert r; decide

theorem fdec (k : BitVec 4) : Statement (.fdec k) := fun _ => by revert k; decide

end Sys2Proof.Laws.TableFit
end

