-- ==== Sys2Proof/Laws/State.lean ====
section
/-! SUPPORT. One lemma per field of State per update, true by rfl, so that no proof unfolds a record update. -/

namespace Sys2Proof.Machine

/-! ### `respond` -/

@[simp] theorem respond_cfg (s : State) (r : Response) : (s.respond r).cfg = s.cfg := rfl

@[simp] theorem respond_block (s : State) (r : Response) : (s.respond r).block = s.block := rfl

@[simp] theorem respond_inputs (s : State) (r : Response) : (s.respond r).inputs = s.inputs := rfl

@[simp] theorem respond_out (s : State) (r : Response) : (s.respond r).out = r := rfl

@[simp] theorem respond_freeCtr (s : State) (r : Response) : (s.respond r).freeCtr = s.freeCtr := rfl

/-! ### `answer` -/

@[simp] theorem answer_cfg (s : State) (v : Word) : (s.answer v).cfg = s.cfg := rfl

@[simp] theorem answer_block (s : State) (v : Word) : (s.answer v).block = s.block := rfl

@[simp] theorem answer_inputs (s : State) (v : Word) : (s.answer v).inputs = s.inputs := rfl

@[simp] theorem answer_out (s : State) (v : Word) : (s.answer v).out = .onQ v false := rfl

@[simp] theorem answer_freeCtr (s : State) (v : Word) : (s.answer v).freeCtr = s.freeCtr := rfl

/-! ### `noEvents` -/

@[simp] theorem noEvents_cfg (s : State) : (s.noEvents).cfg = s.cfg := rfl

@[simp] theorem noEvents_block (s : State) : (s.noEvents).block = s.block := rfl

@[simp] theorem noEvents_inputs (s : State) : (s.noEvents).inputs = s.inputs := rfl

@[simp] theorem noEvents_out (s : State) : (s.noEvents).out = .onP false s.block.lastSym false false := rfl

@[simp] theorem noEvents_freeCtr (s : State) : (s.noEvents).freeCtr = s.freeCtr := rfl

/-! ### `indicateFault` -/

@[simp] theorem indicateFault_cfg (s : State) (port : Port) : (s.indicateFault port).cfg = s.cfg := rfl

@[simp] theorem indicateFault_block (s : State) (port : Port) : (s.indicateFault port).block = s.block := rfl

@[simp] theorem indicateFault_inputs (s : State) (port : Port) : (s.indicateFault port).inputs = s.inputs := rfl

@[simp] theorem indicateFault_out (s : State) (port : Port) : (s.indicateFault port).out = faultResponse port s.freeCtr := rfl

@[simp] theorem indicateFault_freeCtr (s : State) (port : Port) : (s.indicateFault port).freeCtr = s.freeCtr + 1 := rfl

/-! ### `takeFault` -/

@[simp] theorem takeFault_cfg (s : State) (port : Port) (cause : FaultCause) : (s.takeFault port cause).cfg = s.cfg := rfl

@[simp] theorem takeFault_block (s : State) (port : Port) (cause : FaultCause) : (s.takeFault port cause).block = { s.block with fault := true, faultCause := cause } := rfl

@[simp] theorem takeFault_inputs (s : State) (port : Port) (cause : FaultCause) : (s.takeFault port cause).inputs = s.inputs := rfl

@[simp] theorem takeFault_out (s : State) (port : Port) (cause : FaultCause) : (s.takeFault port cause).out = faultResponse port s.freeCtr := rfl

@[simp] theorem takeFault_freeCtr (s : State) (port : Port) (cause : FaultCause) : (s.takeFault port cause).freeCtr = s.freeCtr + 1 := rfl

/-! ### `takeSample` -/

@[simp] theorem takeSample_cfg (s : State) (smp : Bool) : (s.takeSample smp).cfg = s.cfg := rfl

@[simp] theorem takeSample_block (s : State) (smp : Bool) : (s.takeSample smp).block = (tick s.cfg smp s.block).1 := rfl

@[simp] theorem takeSample_inputs (s : State) (smp : Bool) : (s.takeSample smp).inputs = s.inputs := rfl

@[simp] theorem takeSample_out (s : State) (smp : Bool) : (s.takeSample smp).out = 
      .onP (tick s.cfg smp s.block).2.second (tick s.cfg smp s.block).2.symbol (tick s.cfg smp s.block).2.frame false := rfl

@[simp] theorem takeSample_freeCtr (s : State) (smp : Bool) : (s.takeSample smp).freeCtr = s.freeCtr := rfl

/-! ### `idle` -/

@[simp] theorem idle_cfg (s : State) : (s.idle).cfg = s.cfg := rfl

@[simp] theorem idle_block (s : State) : (s.idle).block = s.block := rfl

@[simp] theorem idle_inputs (s : State) : (s.idle).inputs = s.inputs := rfl

@[simp] theorem idle_out (s : State) : (s.idle).out = .idle := rfl

@[simp] theorem idle_freeCtr (s : State) : (s.idle).freeCtr = s.freeCtr := rfl

/-! ### `resetBlock` -/

@[simp] theorem resetBlock_cfg (s : State) : (s.resetBlock).cfg = s.cfg := rfl

@[simp] theorem resetBlock_block (s : State) : (s.resetBlock).block = Block.reset s.cfg := rfl

@[simp] theorem resetBlock_inputs (s : State) : (s.resetBlock).inputs = s.inputs := rfl

@[simp] theorem resetBlock_out (s : State) : (s.resetBlock).out = .idle := rfl

@[simp] theorem resetBlock_freeCtr (s : State) : (s.resetBlock).freeCtr = s.freeCtr := rfl

/-! ### `withFetchWord` -/

@[simp] theorem withFetchWord_cfg (s : State) (nbits w : Nat) : (s.withFetchWord nbits w).cfg = s.cfg := rfl

@[simp] theorem withFetchWord_block (s : State) (nbits w : Nat) : (s.withFetchWord nbits w).block = s.block := rfl

@[simp] theorem withFetchWord_inputs (s : State) (nbits w : Nat) : (s.withFetchWord nbits w).inputs = 
      Clock.single (portOf (tableWord nbits w)) (tableWord nbits w) :: s.inputs := rfl

@[simp] theorem withFetchWord_out (s : State) (nbits w : Nat) : (s.withFetchWord nbits w).out = s.out := rfl

@[simp] theorem withFetchWord_freeCtr (s : State) (nbits w : Nat) : (s.withFetchWord nbits w).freeCtr = s.freeCtr := rfl

/-! ### `load` -/

@[simp] theorem load_cfg (s : State) (ws : List PortWord) : (s.load ws).cfg = s.cfg := rfl

@[simp] theorem load_block (s : State) (ws : List PortWord) : (s.load ws).block = s.block := rfl

@[simp] theorem load_inputs (s : State) (ws : List PortWord) : (s.load ws).inputs = s.inputs ++ ws.map fun pw => Clock.single pw.1 pw.2 := rfl

@[simp] theorem load_out (s : State) (ws : List PortWord) : (s.load ws).out = s.out := rfl

@[simp] theorem load_freeCtr (s : State) (ws : List PortWord) : (s.load ws).freeCtr = s.freeCtr := rfl

end Sys2Proof.Machine
end

