-- ==== Sys2Proof/Laws/Step.lean ====
section
/-! SUPPORT. What a command, and a step, can do, said once: every invariant follows from these cases. -/

namespace Sys2Proof.Machine

theorem perform_of_running {s : State} (h : s.Running) (port : Port) (run : State → State) :
    perform port s run = .next (run s) := by
  simp [perform, h]

theorem perform_of_halted {s : State} (h : s.Halted) (port : Port) (run : State → State) :
    perform port s run = .next (s.indicateFault port) := by
  simp [perform, h]

/-- The fault indication is shown on the port it is given on (R243). -/
theorem indicateFault_shows (s : State) (port : Port) : Response.ShowsFault port (s.indicateFault port).out := by
  cases port
  · exact ⟨_, _, _, rfl⟩
  · exact ⟨_, rfl⟩

/-- Raising a fault is fault entry, with its code on the pins (R240, R243, R253). -/
theorem takeFault_entry (s : State) (port : Port) (cause : FaultCause) : FaultEntry port cause s (s.takeFault port cause) where
  block := rfl
  pinFault := rfl
  boundsPin := by rintro rfl; rfl
  illegalPin := by rintro rfl; rfl
  shown := indicateFault_shows _ port
  cfg := rfl
  inputs := rfl

/-! ### Each command on a running block -/

theorem exec_nop {s : State} (h : s.Running) (port : Port) :
    exec (.nop port) s = .next (match port with | .P => s.noEvents | .Q => s.answer 0) := by
  simp only [exec, execNop, perform, h]; rfl

theorem exec_tick {s : State} (h : s.Running) (smp : Bool) : exec (.tick smp) s = .next (s.takeSample smp) := by
  simp only [exec, execTick, perform, h]; rfl

theorem exec_tickc {s : State} (h : s.Running) (c : BitVec 8) :
    exec (.tickc c) s = .next (match sampleOf c with | some smp => s.takeSample smp | none => s.noEvents) := by
  simp only [exec, execTickc, perform, h]; rfl

theorem exec_rdbit {s : State} (h : s.Running) (i : BitVec 12) :
    exec (.rdbit i) s = .next (s.answerIndexed ((s.block.raw.bat i.toNat).map fun b => zext b.toNat)) := by
  simp only [exec, execRdbit, perform, h]; rfl

theorem exec_rdsym {s : State} (h : s.Running) (i : BitVec 12) :
    exec (.rdsym i) s = .next (s.answerIndexed ((s.block.sring.sat i.toNat).map fun v => v.setWidth 32)) := by
  simp only [exec, execRdsym, perform, h]; rfl

theorem exec_rdcnt {s : State} (h : s.Running) (i : BitVec 12) :
    exec (.rdcnt i) s =
      .next (s.answerIndexed (indexed s.cfg.subsec i fun k => zext (s.block.counts.getD k 0))) := by
  simp only [exec, execRdcnt, perform, h]; rfl

theorem exec_rdedge {s : State} (h : s.Running) (i : BitVec 12) :
    exec (.rdedge i) s =
      .next (s.answerIndexed (indexed s.cfg.subsec i fun k => sext (s.block.edges.getD k 0))) := by
  simp only [exec, execRdedge, perform, h]; rfl

theorem exec_rdhh {s : State} (h : s.Running) (i : BitVec 12) :
    exec (.rdhh i) s =
      .next (s.answerIndexed (indexed s.cfg.symbols i fun k => zext (s.block.healthHistory.getD k 0))) := by
  simp only [exec, execRdhh, perform, h]; rfl

theorem exec_rdreg {s : State} (h : s.Running) (r : BitVec 8) :
    exec (.rdreg r) s = .next (match Reg.ofNumber r with
      | some g => s.answer (registerValue s.cfg s.block g)
      | none => s.takeFault .Q .illegal) := by
  simp only [exec, execRdreg, perform, h]; rfl

theorem exec_fdec {s : State} (h : s.Running) (k : BitVec 4) :
    exec (.fdec k) s = .next (match Selector.ofBits k with
      | some sel => s.answer ((fdecode s.cfg s.block.sring).select sel)
      | none => s.takeFault .Q .illegal) := by
  simp only [exec, execFdec, perform, h]; rfl

/-! ### Every command -/

/-- What a command does to a running block: it answers, it raises a fault, or it takes a sample. -/
inductive Effect (s : State) : State → Prop
  | answers (r : Response) : Effect s (s.respond r)
  | faults (port : Port) (cause : FaultCause) (h : cause ≠ .none) : Effect s (s.takeFault port cause)
  | samples (smp : Bool) : Effect s (s.takeSample smp)

theorem answerIndexed_effect (s : State) (v : Option Word) : Effect s (s.answerIndexed v) := by
  cases v
  · exact .faults _ _ (by decide)
  · exact .answers _

/-- Every command is performed on its port under the halted-block rule, with an effect that is one of the three
(R87, R190, R243). -/
theorem exec_performs (i : Instr) :
    ∃ run : State → State, (∀ s, exec i s = perform i.port s run) ∧ ∀ s, Effect s (run s) := by
  cases i with
  | nop port => exact ⟨_, fun _ => rfl, fun s => by cases port <;> exact .answers _⟩
  | tick smp => exact ⟨_, fun _ => rfl, fun s => .samples smp⟩
  | tickc c =>
    refine ⟨_, fun _ => rfl, fun s => ?_⟩
    split
    · exact .samples _
    · exact .answers _
  | rdbit k => exact ⟨_, fun _ => rfl, fun s => answerIndexed_effect _ _⟩
  | rdsym k => exact ⟨_, fun _ => rfl, fun s => answerIndexed_effect _ _⟩
  | rdcnt k => exact ⟨_, fun _ => rfl, fun s => answerIndexed_effect _ _⟩
  | rdedge k => exact ⟨_, fun _ => rfl, fun s => answerIndexed_effect _ _⟩
  | rdhh k => exact ⟨_, fun _ => rfl, fun s => answerIndexed_effect _ _⟩
  | rdreg r =>
    refine ⟨_, fun _ => rfl, fun s => ?_⟩
    split
    · exact .answers _
    · exact .faults _ _ (by decide)
  | fdec k =>
    refine ⟨_, fun _ => rfl, fun s => ?_⟩
    split
    · exact .answers _
    · exact .faults _ _ (by decide)

/-- On a running block every command answers a next state, and that state is one of the three. -/
theorem exec_running {s : State} (h : s.Running) (i : Instr) : ∃ t, exec i s = .next t ∧ Effect s t := by
  obtain ⟨run, hr, he⟩ := exec_performs i
  exact ⟨run s, by rw [hr, perform_of_running h], he s⟩

/-- A port Q command on a running block answers, or raises a fault; it never takes a sample (R190). -/
theorem exec_query {s : State} (h : s.Running) {i : Instr} (hq : i.port = .Q) :
    ∃ t, exec i s = .next t ∧ ((∃ r, t = s.respond r) ∨ ∃ cause, cause ≠ .none ∧ t = s.takeFault .Q cause) := by
  have indexed : ∀ v : Option Word, (∃ r, s.answerIndexed v = s.respond r) ∨
      ∃ cause, cause ≠ .none ∧ s.answerIndexed v = s.takeFault .Q cause := by
    intro v
    cases v
    · exact .inr ⟨.bounds, by decide, rfl⟩
    · exact .inl ⟨_, rfl⟩
  cases i with
  | nop port => cases port <;> cases hq; exact ⟨_, exec_nop h .Q, .inl ⟨_, rfl⟩⟩
  | tick smp => cases hq
  | tickc c => cases hq
  | rdbit k => exact ⟨_, exec_rdbit h k, indexed _⟩
  | rdsym k => exact ⟨_, exec_rdsym h k, indexed _⟩
  | rdcnt k => exact ⟨_, exec_rdcnt h k, indexed _⟩
  | rdedge k => exact ⟨_, exec_rdedge h k, indexed _⟩
  | rdhh k => exact ⟨_, exec_rdhh h k, indexed _⟩
  | rdreg r =>
    refine ⟨_, exec_rdreg h r, ?_⟩
    split
    · exact .inl ⟨_, rfl⟩
    · exact .inr ⟨.illegal, by decide, rfl⟩
  | fdec k =>
    refine ⟨_, exec_fdec h k, ?_⟩
    split
    · exact .inl ⟨_, rfl⟩
    · exact .inr ⟨.illegal, by decide, rfl⟩

/-- On a halted block every command is answered with the fault indication of its port (R243). -/
theorem exec_halted {s : State} (h : s.Halted) (i : Instr) : exec i s = .next (s.indicateFault i.port) := by
  obtain ⟨run, hr, -⟩ := exec_performs i
  rw [hr, perform_of_halted h]

/-- Taking what is presented out of the inputs changes nothing else. -/
theorem present_spec (s : State) :
    (∃ rest, s.present = .nothing { s with inputs := rest } ∧ rest ⊆ s.inputs) ∨
    (∃ rest, s.present = .resetting { s with inputs := rest } ∧ rest ⊆ s.inputs ∧ ∃ c ∈ s.inputs, c.reset = true) ∨
    (∃ port w rest, s.present = .word port w { s with inputs := rest } ∧
      ∀ c ∈ rest, c.reset = true → c ∈ s.inputs) := by
  unfold State.present
  split
  · rename_i h
    exact .inl ⟨[], by rw [← h], by simp⟩
  · rename_i rest h
    exact .inr (.inl ⟨rest, rfl, by simp [h], _, by rw [h]; exact List.mem_cons_self, rfl⟩)
  · rename_i w rest h
    exact .inr (.inr ⟨_, _, rest, rfl, by simp +contextual [h]⟩)
  · rename_i w v rest h
    refine .inr (.inr ⟨_, _, _, rfl, ?_⟩)
    simp only [List.mem_cons, forall_eq_or_imp, h]
    exact ⟨by simp, fun c hc _ => .inr hc⟩
  · rename_i w rest h
    exact .inr (.inr ⟨_, _, rest, rfl, by simp +contextual [h]⟩)
  · rename_i rest h
    exact .inl ⟨rest, rfl, by simp [h]⟩

/-- A word presented to a halted block, a command or not, is answered with the fault indication of its port (R243). -/
theorem step_word_halted {s s' : State} {port : Port} {w : Cmd} (h : s.present = .word port w s') (hh : s'.Halted) :
    step s = .next (s'.indicateFault port) := by
  simp only [step, h]
  split
  · rename_i i hi
    rw [exec_halted hh, decode_port hi]
  · exact perform_of_halted hh port _

/-- A word that is no command, presented to a running block, raises IllegalCommand (R242). -/
theorem step_word_illegal {s s' : State} {port : Port} {w : Cmd} {e : DecodeError} (h : s.present = .word port w s')
    (hd : decode port w = .illegal e) (hr : s'.Running) : step s = .next (s'.takeFault port .illegal) := by
  simp only [step, h, hd]
  exact perform_of_running hr port _

/-- What a step can do to the block, said once: nothing; the reset; fault entry; one TICK. -/
inductive BlockStep (p : Params) (b : Block) : Block → Prop
  | stays : BlockStep p b b
  | resets : BlockStep p b (Block.reset p)
  | faults (cause : FaultCause) (h : cause ≠ .none) (running : b.fault = false) :
      BlockStep p b { b with fault := true, faultCause := cause }
  | ticks (smp : Bool) (running : b.fault = false) : BlockStep p b (tick p smp b).1

theorem Effect.blockStep {s t : State} (h : s.Running) (e : Effect s t) : BlockStep s.cfg s.block t.block := by
  cases e with
  | answers r => exact .stays
  | faults port cause hc => exact .faults cause hc h
  | samples smp => exact .ticks smp h

theorem Effect.cfg_eq {s t : State} (e : Effect s t) : t.cfg = s.cfg := by cases e <;> rfl

theorem Effect.inputs_eq {s t : State} (e : Effect s t) : t.inputs = s.inputs := by cases e <;> rfl

/-- Every command answers a next state that keeps the parameters and the inputs and makes one block step. -/
theorem exec_blockStep (i : Instr) (s : State) :
    ∃ t, exec i s = .next t ∧ t.cfg = s.cfg ∧ t.inputs = s.inputs ∧ BlockStep s.cfg s.block t.block := by
  cases h : s.block.fault with
  | true => exact ⟨_, exec_halted h i, rfl, rfl, .stays⟩
  | false =>
    obtain ⟨t, ht, e⟩ := exec_running h i
    exact ⟨t, ht, e.cfg_eq, e.inputs_eq, e.blockStep h⟩

theorem execIllegal_blockStep (port : Port) (s : State) :
    ∃ t, execIllegal port s = .next t ∧ t.cfg = s.cfg ∧ t.inputs = s.inputs ∧ BlockStep s.cfg s.block t.block := by
  cases h : s.block.fault with
  | true => exact ⟨_, perform_of_halted h _ _, rfl, rfl, .stays⟩
  | false => exact ⟨_, perform_of_running h _ _, rfl, rfl, .faults _ (by decide) h⟩

/-- A step keeps the parameters and makes one block step. -/
theorem step_blockStep {s t : State} (h : step s = .next t) :
    t.cfg = s.cfg ∧ BlockStep s.cfg s.block t.block := by
  unfold step at h
  rcases present_spec s with ⟨rest, hp, -⟩ | ⟨rest, hp, -, -⟩ | ⟨port, w, rest, hp, -⟩ <;> rw [hp] at h
  · cases h; exact ⟨rfl, .stays⟩
  · cases h; exact ⟨rfl, .resets⟩
  · dsimp only at h
    split at h
    · rename_i i _
      obtain ⟨u, hu, hc, -, hb⟩ := exec_blockStep i { s with inputs := rest }
      rw [hu] at h; cases h; exact ⟨hc, hb⟩
    · obtain ⟨u, hu, hc, -, hb⟩ := execIllegal_blockStep port { s with inputs := rest }
      rw [hu] at h; cases h; exact ⟨hc, hb⟩

/-- Every step answers a next state. -/
theorem step_total (s : State) : ∃ t, step s = .next t := by
  unfold step
  rcases present_spec s with ⟨r, hp, -⟩ | ⟨r, hp, -, -⟩ | ⟨port, w, r, hp, -⟩ <;> rw [hp]
  · exact ⟨_, rfl⟩
  · exact ⟨_, rfl⟩
  · dsimp only
    split
    · obtain ⟨u, hu, -⟩ := exec_blockStep ‹_› { s with inputs := r }
      exact ⟨u, hu⟩
    · obtain ⟨u, hu, -⟩ := execIllegal_blockStep port { s with inputs := r }
      exact ⟨u, hu⟩

/-- What a step without the reset input can do to the block: nothing; fault entry; one TICK. -/
inductive QuietStep (p : Params) (b : Block) : Block → Prop
  | stays : QuietStep p b b
  | faults (cause : FaultCause) (h : cause ≠ .none) (running : b.fault = false) :
      QuietStep p b { b with fault := true, faultCause := cause }
  | ticks (smp : Bool) (running : b.fault = false) : QuietStep p b (tick p smp b).1

/-- A step when no clock to come asserts reset (R60, R243). -/
theorem step_quiet {s t : State} (hn : s.NoReset) (h : step s = .next t) :
    t.cfg = s.cfg ∧ t.NoReset ∧ QuietStep s.cfg s.block t.block := by
  unfold step at h
  rcases present_spec s with ⟨rest, hp, hs⟩ | ⟨rest, hp, -, ⟨c, hc, hr⟩⟩ | ⟨port, w, rest, hp, hs⟩ <;> rw [hp] at h
  · cases h; exact ⟨rfl, fun c hc => hn c (hs hc), .stays⟩
  · rw [hn c hc] at hr; cases hr
  · have hnr : ∀ c ∈ rest, c.reset = false := by
      intro c hc
      cases hb : c.reset with
      | false => rfl
      | true => have := hn c (hs c hc hb); rw [hb] at this; cases this
    dsimp only at h
    have goal : ∀ u : State, u.inputs = rest → u.cfg = s.cfg → QuietStep s.cfg s.block u.block →
        u.cfg = s.cfg ∧ u.NoReset ∧ QuietStep s.cfg s.block u.block :=
      fun u hi hc hb => ⟨hc, fun c h => hnr c (hi ▸ h), hb⟩
    split at h
    · rename_i i _
      cases hf : s.block.fault with
      | true =>
        rw [exec_halted (s := { s with inputs := rest }) hf] at h; cases h
        exact goal _ rfl rfl .stays
      | false =>
        obtain ⟨u, hu, he⟩ := exec_running (s := { s with inputs := rest }) hf i
        rw [hu] at h; cases h
        refine goal _ he.inputs_eq he.cfg_eq ?_
        cases he with
        | answers r => exact .stays
        | faults port c hc => exact .faults c hc hf
        | samples x => exact .ticks x hf
    · cases hf : s.block.fault with
      | true =>
        rw [execIllegal, perform_of_halted (s := { s with inputs := rest }) hf] at h; cases h
        exact goal _ rfl rfl .stays
      | false =>
        rw [execIllegal, perform_of_running (s := { s with inputs := rest }) hf] at h; cases h
        exact goal _ rfl rfl (.faults .illegal (by decide) hf)

/-- A run peels off its first step. -/
theorem run_succ {s t : State} (h : step s = .next t) (n : Nat) :
    Host.Core.run core (n + 1) s = Host.Core.run core n t := by
  simp only [Host.Core.run, core]
  rw [h]

end Sys2Proof.Machine
end

