-- ==== Sys2Proof/Laws/Validator.lean ====
section
/-! SUPPORT. Each check of the frame decoder read as a condition on the symbols, and what an accepted frame met
(R161 to R170). -/

namespace Sys2Proof.Machine

/-- The marker check (R163). -/
theorem marksRight_iff (w : List Symbol) :
    marksRight w = true ↔ ∀ pos < 60, (symAt w pos).toNat = 2 ↔ pos = 0 ∨ pos % 10 = 9 := by
  simp only [marksRight, List.all_eq_true, List.mem_range, beq_iff_eq]
  apply forall_congr'
  intro pos
  apply imp_congr_right
  intro _
  have mark : (symAt w pos == symMark) = decide ((symAt w pos).toNat = 2) := by
    rw [Bool.eq_iff_iff]
    simp [BitVec.toNat_eq, symMark]
  rw [mark, Bool.eq_iff_iff]
  simp [isMarkPosition]

/-- The zero check (R164). -/
theorem zerosRight_iff (w : List Symbol) :
    zerosRight w = true ↔ ∀ pos ∈ zeroPositions, (symAt w pos).toNat = 0 := by
  simp only [zerosRight, List.all_eq_true, beq_iff_eq, BitVec.toNat_eq, symZero]
  rfl

/-- The Invalid check (R165). -/
theorem hasInvalid_iff (w : List Symbol) : hasInvalid w = true ↔ ∃ pos < 60, (symAt w pos).toNat = 3 := by
  simp [hasInvalid, BitVec.toNat_eq, symInvalid]

/-- The digit check (R167). -/
theorem digitOverflow_eq_false_iff (w : List Symbol) :
    digitOverflow w = false ↔ ∀ g ∈ digitGroups, groupValue w g ≤ 9 := by
  simp [digitOverflow, List.any_eq_false]

/-- The sign check (R168). -/
theorem ut1Offset_eq_some_iff (w : List Symbol) (u : Int) :
    ut1Offset w = some u ↔
      (groupValue w .ut1Sign = 5 ∧ u = (groupValue w .ut1Mag : Int)) ∨
      (groupValue w .ut1Sign = 2 ∧ u = -(groupValue w .ut1Mag : Int)) := by
  unfold ut1Offset
  split
  · rename_i h5
    exact ⟨fun h => .inl ⟨h5, (Option.some.inj h).symm⟩,
      fun h => h.elim (fun h => congrArg some h.2.symm) fun h => absurd (h5.symm.trans h.1) (by decide)⟩
  · split
    · rename_i h2
      exact ⟨fun h => .inr ⟨h2, (Option.some.inj h).symm⟩,
        fun h => h.elim (fun h => absurd (h2.symm.trans h.1) (by decide)) fun h => congrArg some h.2.symm⟩
    · rename_i h5 h2
      simp [h5, h2]

/-- An accepted frame passed every check, and its record is the one its groups give (R161). -/
theorem decodeWindow_decoded {policy : InvalidPolicy} {w : List Symbol} {r : CalRecord}
    (h : decodeWindow policy w = .decoded r) :
    marksRight w = true ∧ zerosRight w = true ∧ (policy = .reject → hasInvalid w = false) ∧
    digitOverflow w = false ∧ ∃ u, ut1Offset w = some u ∧ r = buildRecord w u := by
  unfold decodeWindow at h
  split at h; · cases h
  split at h; · cases h
  split at h; · cases h
  split at h; · cases h
  split at h
  · cases h
  · rename_i hm hz hi hd _ u hu
    cases h
    refine ⟨by simpa using hm, by simpa using hz, ?_, by simpa using hd, u, hu, rfl⟩
    intro hp
    simpa [hp] using hi

end Sys2Proof.Machine
end

