-- ==== Sys2Proof/Laws/Window.lean ====
section
/-! SUPPORT. The occupancy counts against the window (R24, R27, R122) and the scan for the steepest rise (R124). -/

namespace Sys2Proof.Machine

/-! ### Lists -/

/-- An element after one element is set. -/
theorem getD_set {α : Type} (l : List α) (i k : Nat) (a d : α) :
    (l.set i a).getD k d = if i = k ∧ k < l.length then a else l.getD k d := by
  simp only [List.getD_eq_getElem?_getD, List.getElem?_set]
  split
  · rename_i h; subst h
    by_cases hl : i < l.length
    · simp [hl]
    · simp [hl]
  · simp [*]

/-- The sum after one element is set (R36, R147). -/
theorem sum_set (l : List Nat) (i : Nat) (h : i < l.length) (v : Nat) :
    (l.set i v).sum + l.getD i 0 = l.sum + v := by
  induction l generalizing i with
  | nil => simp at h
  | cons a l ih =>
    cases i with
    | zero => simp; omega
    | succ i => simp at h; have := ih i h; simp only [List.set_cons_succ, List.sum_cons, List.getD_cons_succ]; omega

/-! ### Counts -/

/-- One bucket further on, after the head has moved on by one. -/
theorem mod_shift (n s h j : Nat) (hd : s ∣ n) : ((h + 1) % n + j) % s = (h + (j + 1)) % s := by
  rw [Nat.add_mod, Nat.mod_mod_of_dvd _ hd, ← Nat.add_mod]; congr 1; omega

/-- A put takes the evicted sample out of the bucket of the head and adds the new one to the same bucket (R24, R27,
R122). -/
theorem bucketCount_bput {p : Params} {r : Ring} (hcap : r.cap = p.buffer) (hh : r.head < p.buffer) (b : Bool) (k : Nat) :
    bucketCount p (r.bput b).2 k + (if r.head % p.subsec = k then (r.sample 0).toNat else 0) =
      bucketCount p r k + (if r.head % p.subsec = k then b.toNat else 0) := by
  have hd : p.subsec ∣ p.buffer := ⟨p.history, rfl⟩
  obtain ⟨m, hm⟩ : ∃ m, p.buffer = m + 1 := ⟨p.buffer - 1, by omega⟩
  have hhead : r.head < r.cap := by omega
  have hold : bucketCount p r k = (List.range m).countP (fun j => r.sample (j + 1) && (r.head + (j + 1)) % p.subsec == k) +
      (if r.head % p.subsec = k then (r.sample 0).toNat else 0) := by
    rw [bucketCount, hm, List.range_succ_eq_map, List.countP_cons, List.countP_map]
    congr 1
    cases r.sample 0 <;> simp
  have hnew : bucketCount p (r.bput b).2 k =
      (List.range m).countP (fun j => r.sample (j + 1) && (r.head + (j + 1)) % p.subsec == k) +
      (if r.head % p.subsec = k then b.toNat else 0) := by
    rw [bucketCount, hm, List.range_succ, List.countP_append]
    congr 1
    · apply List.countP_congr
      intro j hj
      have hj : j < m := by simpa using hj
      rw [Ring.sample_bput hhead b (by omega), if_neg (by omega), Ring.bput_head, hcap, mod_shift _ _ _ _ hd]
    · have hs : (r.bput b).2.sample m = b := by
        rw [Ring.sample_bput hhead b (by omega), if_pos (by omega)]
      have hp : ((r.bput b).2.head + m) % p.subsec = r.head % p.subsec := by
        rw [Ring.bput_head, hcap, mod_shift _ _ _ _ hd, show r.head + (m + 1) = r.head + p.buffer by omega,
          Nat.add_mod, Nat.mod_eq_zero_of_dvd hd, Nat.add_zero, Nat.mod_mod]
      rw [List.countP_singleton, hs, hp]
      cases b <;> simp
  omega

/-- Among `s` consecutive positions at most one lies in a given bucket. -/
theorem period_count_le (s a k : Nat) : (List.range s).countP (fun j => (a + j) % s == k) ≤ 1 := by
  rw [List.countP_eq_length_filter]
  have nd := (List.nodup_range (n := s)).filter (fun j => (a + j) % s == k)
  by_contra hc
  match hl : (List.range s).filter (fun j => (a + j) % s == k), nd, hc with
  | [], _, hc => simp at hc
  | [_], _, hc => simp at hc
  | x :: y :: l, nd, _ =>
    have hx : x ∈ (List.range s).filter (fun j => (a + j) % s == k) := by rw [hl]; simp
    have hy : y ∈ (List.range s).filter (fun j => (a + j) % s == k) := by rw [hl]; simp
    simp only [List.mem_filter, List.mem_range, beq_iff_eq] at hx hy
    have hxy : x ≠ y := by intro e; simp [e] at nd
    have := (Nat.ModEq.add_left_cancel' a (hx.2.trans hy.2.symm : a + x ≡ a + y [MOD s]))
    rw [Nat.ModEq, Nat.mod_eq_of_lt hx.1, Nat.mod_eq_of_lt hy.1] at this
    exact hxy this

/-- A bucket has one position in each of the `HISTORY` seconds of the window (R27). -/
theorem bucketCount_le (p : Params) (r : Ring) (k : Nat) : bucketCount p r k ≤ p.history := by
  have h1 : bucketCount p r k ≤ (List.range p.buffer).countP (fun j => (r.head + j) % p.subsec == k) :=
    List.countP_mono_left fun j _ h => by simp_all
  refine h1.trans ?_
  rw [Params.buffer]
  generalize r.head = a
  induction p.history with
  | zero => simp
  | succ h ih =>
    rw [Nat.mul_succ, List.range_add, List.countP_append, List.countP_map]
    have e : (fun j => (a + j) % p.subsec == k) ∘ (p.subsec * h + ·) = fun j => (a + j) % p.subsec == k := by
      funext j
      simp only [Function.comp]
      rw [show a + (p.subsec * h + j) = (a + j) + p.subsec * h by omega, Nat.add_mul_mod_self_left]
    rw [e]
    exact Nat.add_le_add ih (period_count_le _ _ _)

/-- Steps 1 and 2 keep the invariant of `counts` (R27, R122). -/
theorem nextCounts_agree {p : Params} {b : Block} (smp : Bool) (h : b.Inv p) (k : Nat) (hk : k < p.subsec) :
    (nextCounts smp b).getD k 0 = bucketCount p (b.raw.bput smp).2 k := by
  have hcap : b.raw.cap = p.buffer := h.storage.1
  have hb := bucketCount_bput hcap h.storage.2.1 smp k
  rw [h.aligned] at hb
  have hc := h.countsAgree k hk
  have hev := Ring.bput_evicted_eq_sample (r := b.raw) (by rw [hcap]; exact h.storage.2.1) smp
  rw [nextCounts, getD_set, hev, h.storage.2.2.2.2.1]
  by_cases e : b.subsec = k
  · rw [if_pos ⟨e, hk⟩, e, hc]
    rw [if_pos e, if_pos e] at hb
    unfold adjustCount
    cases smp <;> cases hs : b.raw.sample 0 <;> simp [hs] at hb ⊢ <;> omega
  · rw [if_neg (by tauto), hc]
    rw [if_neg e, if_neg e] at hb; omega

/-! ### The scan -/

/-- What the scan returns: the starting index, or the least index of the greatest element (R124). -/
theorem scanFrom_cases (bestI : Nat) (bestV : Int) (i : Nat) (es : List Int) :
    (scanFrom bestI bestV i es = bestI ∧ ∀ e ∈ es, e ≤ bestV) ∨
    ∃ j, j < es.length ∧ scanFrom bestI bestV i es = i + j ∧ bestV < es.getD j 0 ∧
      (∀ e ∈ es, e ≤ es.getD j 0) ∧ ∀ k < j, es.getD k 0 < es.getD j 0 := by
  induction es generalizing bestI bestV i with
  | nil => exact .inl ⟨rfl, by simp⟩
  | cons e es ih =>
    rw [scanFrom]
    split
    · rename_i hlt
      rcases ih i e (i + 1) with ⟨h, hall⟩ | ⟨j, hj, h, hv, hall, hlt'⟩
      · exact .inr ⟨0, by simp, h, hlt, by simpa using hall, by simp⟩
      · refine .inr ⟨j + 1, by simpa using hj, by rw [h]; omega, by simpa using hlt.trans hv, ?_, ?_⟩
        · simpa using ⟨hv.le, hall⟩
        · intro k hk
          cases k with
          | zero => simpa using hv
          | succ k => simpa using hlt' k (by omega)
    · rename_i hle
      have hle : e ≤ bestV := by omega
      rcases ih bestI bestV (i + 1) with ⟨h, hall⟩ | ⟨j, hj, h, hv, hall, hlt'⟩
      · exact .inl ⟨h, by simpa using ⟨hle, hall⟩⟩
      · refine .inr ⟨j + 1, by simpa using hj, by rw [h]; omega, by simpa using hv, ?_, ?_⟩
        · simpa using ⟨hle.trans hv.le, hall⟩
        · intro k hk
          cases k with
          | zero => simpa using hle.trans_lt hv
          | succ k => simpa using hlt' k (by omega)

/-- The least index of the greatest element (R124). -/
theorem leastArgmax_spec {es : List Int} (h : es ≠ []) :
    leastArgmax es < es.length ∧ (∀ e ∈ es, e ≤ es.getD (leastArgmax es) 0) ∧
    ∀ k < leastArgmax es, es.getD k 0 < es.getD (leastArgmax es) 0 := by
  cases es with
  | nil => exact absurd rfl h
  | cons e es =>
    rcases scanFrom_cases 0 e 1 es with ⟨h, hall⟩ | ⟨j, hj, h, hv, hall, hlt⟩ <;> rw [leastArgmax, h]
    · exact ⟨by simp, by simpa using hall, by simp⟩
    · rw [Nat.add_comm 1 j]
      refine ⟨by simpa using hj, by simpa using ⟨hv.le, hall⟩, ?_⟩
      intro k hk
      cases k with
      | zero => simpa using hv
      | succ k => simpa using hlt k (by omega)

/-- The scan from the constant 0 finds the same index as soon as some element is positive, and else 0 (R124, U3). -/
theorem scanZero_eq {es : List Int} : 
    scanFrom 0 0 0 es = if es.any (0 < ·) then leastArgmax es else 0 := by
  rcases scanFrom_cases 0 0 0 es with ⟨h, hall⟩ | ⟨j, hj, h, hv, hall, hlt⟩ <;> rw [h]
  · rw [if_neg]
    simpa using fun x hx => hall x hx
  · have hne : es ≠ [] := by rintro rfl; simp at hj
    have hany : es.any (0 < ·) = true := by
      rw [List.any_eq_true]
      exact ⟨es[j], List.getElem_mem hj, by simpa [List.getD_eq_getElem?_getD, hj] using hv⟩
    rw [if_pos hany, Nat.zero_add]
    obtain ⟨hl, hm, hlt'⟩ := leastArgmax_spec hne
    have a1 : es.getD (leastArgmax es) 0 ≤ es.getD j 0 := hall _ (by simp [List.getD_eq_getElem?_getD, hl])
    have a2 : es.getD j 0 ≤ es.getD (leastArgmax es) 0 := hm _ (by simp [List.getD_eq_getElem?_getD, hj])
    rcases Nat.lt_trichotomy j (leastArgmax es) with hc | hc | hc
    · have := hlt' _ hc; omega
    · exact hc
    · have := hlt _ hc; omega

/-- `sos` stays a bucket (R30). -/
theorem nextSos_lt {p : Params} (hp : 0 < p.subsec) (es : List Int) {sos : Nat} (h : sos < p.subsec) :
    nextSos p es sos < p.subsec := by
  unfold nextSos; split
  · exact Nat.mod_lt _ hp
  · exact Nat.mod_lt _ hp
  · split
    · exact Nat.mod_lt _ hp
    · exact h

end Sys2Proof.Machine
end

