-- ==== Sys2Proof/Tests/Slice0.lean ====
section
/-! SUPPORT. Tests: each expected value is the spec's own (its vectors V1 to V39, programs PR1 to PR5, the tables of
R80, R85, R177, R195); and for each statement with hypotheses a witness that they can be met together. -/

namespace Sys2Proof.Tests

open Sys2Proof.Machine

set_option maxRecDepth 20000

/-! ## Small states -/

/-- The small parameters of V12. -/
def tiny : Params := { Params.default with subsec := 10, history := 2, forceTss := 10 }

/-- Some bits written as 0 and 1. -/
def bits (l : List Nat) : List Bool := l.map (· == 1)

/-- A machine with these parameters, this block and these clocks to come. -/
def machine (p : Params) (b : Block) (inputs : List Clock) : State := { State.resetOf p with block := b, inputs := inputs }

/-- A value of the state a command gives. -/
def after {α : Type} (i : Instr) (s : State) (f : State → α) : Option α :=
  match exec i s with
  | .next t => some (f t)
  | _ => none

/-- A value of the state a step gives. -/
def afterStep {α : Type} (s : State) (f : State → α) : Option α :=
  match step s with
  | .next t => some (f t)
  | _ => none

/-- V12 after tick 9. -/
def v12Tick9 : Block :=
  { Block.reset tiny with
    raw := ⟨bits [0, 0, 0, 1, 1, 1, 1, 1, 0, 0] ++ bits [0, 0, 0, 0, 0, 0, 0, 0, 0, 0], 10⟩
    counts := [0, 0, 0, 1, 1, 1, 1, 1, 0, 0]
    edges := [0, 0, 0, -1, -1, -1, -1, -1, 0, 0]
    subsec := 0, sos := 1, tss := 10, seq := 10 }

/-- V12 after tick 11. -/
def v12Tick11 : Block :=
  { v12Tick9 with
    raw := { v12Tick9.raw with head := 12 }
    sring := ⟨true :: List.replicate 121 false, 2⟩
    healthHistory := 7 :: List.replicate 60 0
    subsec := 2, tss := 1, health := 7, seq := 12, lastSym := 2, ferr := some .marks }

/-- F1 of V15. -/
def frameF1 : List Symbol :=
  [2, 0, 1, 0, 0, 0, 0, 1, 1, 2] ++ [0, 0, 0, 1, 0, 0, 1, 1, 1, 2] ++ [0, 0, 1, 1, 0, 0, 0, 0, 1, 2] ++
  [0, 1, 0, 0, 0, 0, 1, 0, 1, 2] ++ [0, 0, 0, 1, 0, 0, 0, 1, 0, 2] ++ [0, 1, 1, 0, 0, 0, 0, 0, 0, 2]

/-- F2 of V16. -/
def frameF2 : List Symbol :=
  [2, 1, 0, 1, 0, 1, 0, 0, 1, 2] ++ [0, 0, 1, 0, 0, 0, 0, 1, 1, 2] ++ [0, 0, 1, 1, 0, 0, 1, 1, 0, 2] ++
  [0, 1, 1, 0, 0, 0, 0, 1, 0, 2] ++ [0, 1, 0, 0, 0, 0, 0, 0, 0, 2] ++ [0, 0, 0, 0, 0, 1, 1, 0, 0, 2]

/-- The record of F1 (V15). -/
def recordF1 : CalRecord := ⟨26, 314, 17, 23, 0, 0, 0, 0, 1⟩

/-- F1 with some symbols changed (V18 to V29). -/
def changed (l : List (Nat × Symbol)) : List Symbol := l.foldl (fun w c => w.set c.1 c.2) frameF1

/-- A symbol ring that holds these symbols, oldest first. -/
def ringOf (w : List Symbol) : Ring := ⟨w.flatMap fun v => [v.getLsbD 1, v.getLsbD 0], 0⟩

/-- One tick before a forced boundary on an all-reduced window, with a given symbol ring. -/
def beforeMark (ring : Ring) : Block :=
  { Block.reset tiny with
    raw := ⟨List.replicate 20 true, 0⟩, counts := List.replicate 10 2, sring := ring, tss := 11 }

/-- One tick before F1 is complete. -/
def beforeF1 : Block := beforeMark (ringOf ([0, 0] ++ frameF1.take 59))

/-- A block that holds F1 (as after tick 3006 of PR3). -/
def holdingF1 : Block := { Block.reset tiny with sring := ringOf (0 :: frameF1), recValid := true, record := recordF1 }

def haltedBlock : Block := { Block.reset tiny with fault := true, faultCause := .bounds }

/-! ## Well-formedness -/

/-- An unassigned register number and an unassigned selector are refused (R94). -/
theorem test_wellFormed_refuses_unassigned :
    (Instr.rdreg 0x0B).wellFormed = false ∧ (Instr.rdreg 0x0F).wellFormed = false ∧
    (Instr.rdreg 0x19).wellFormed = false ∧ (Instr.rdreg 0x27).wellFormed = false ∧
    (Instr.rdreg 0xFF).wellFormed = false ∧ (Instr.fdec 10).wellFormed = false ∧
    (Instr.fdec 15).wellFormed = false := by decide

/-- The ends of the assigned ranges are accepted (R195, R177). -/
theorem test_wellFormed_accepts_assigned :
    (Instr.rdreg 0x0A).wellFormed = true ∧ (Instr.rdreg 0x10).wellFormed = true ∧
    (Instr.rdreg 0x26).wellFormed = true ∧ (Instr.fdec 9).wellFormed = true := by decide

/-! ## Decoding: words written bit by bit from R80 and R81, op in bits 15..12 -/

theorem test_decode_nop : decode .P 0b0000_000000000000 = .command (.nop .P) ∧
    decode .Q 0b0000_000000000000 = .command (.nop .Q) := by decide

theorem test_decode_tick : decode .P 0b0001_00000000000_0 = .command (.tick false) ∧
    decode .P 0b0001_00000000000_1 = .command (.tick true) := by decide

theorem test_decode_tickc : decode .P 0b0010_0000_01011111 = .command (.tickc 0x5F) := by decide

theorem test_decode_rdbit : decode .Q 0b1000_011111001111 = .command (.rdbit 1999) := by decide

theorem test_decode_rdsym : decode .Q 0b1001_000000111100 = .command (.rdsym 60) := by decide

theorem test_decode_rdcnt : decode .Q 0b1010_000000000111 = .command (.rdcnt 7) := by decide

theorem test_decode_rdedge : decode .Q 0b1011_000000000110 = .command (.rdedge 6) := by decide

theorem test_decode_rdhh : decode .Q 0b1100_100000000001 = .command (.rdhh 0x801) := by decide

theorem test_decode_rdreg : decode .Q 0b1101_0000_00100110 = .command (.rdreg 0x26) := by decide

theorem test_decode_fdec : decode .Q 0b1110_00000000_1001 = .command (.fdec 9) := by decide

/-- The illegal words of PR5. -/
theorem test_decode_illegal :
    decode .P 0x3000 = .illegal .reservedOpcode ∧ decode .Q 0xF000 = .illegal .reservedOpcode ∧
    decode .Q 0x1001 = .illegal .wrongPort ∧ decode .P 0x8000 = .illegal .wrongPort ∧
    decode .P 0x1003 = .illegal .mustBeZero ∧ decode .Q 0x0001 = .illegal .mustBeZero ∧
    decode .Q 0xD00B = .illegal .unassignedRegister ∧ decode .Q 0xE00A = .illegal .unassignedSelector := by decide

/-- The host's reading of a row's word. -/
theorem test_decodeTableWord :
    decodeTableWord 16 0x1001 = some (.tick true) ∧ decodeTableWord 16 0xE003 = some (.fdec 3) ∧
    decodeTableWord 16 0x0000 = some (.nop .P) ∧ decodeTableWord 16 0x7000 = none := by decide

/-! ## The rings -/

/-- V1, the fifth and the last put. -/
theorem test_bit_ring :
    ((Ring.zeros 4).putAll (bits [1, 0, 1, 1])).bput false = (true, ⟨bits [0, 0, 1, 1], 1⟩) ∧
    ((Ring.zeros 4).putAll (bits [1, 0, 1, 1, 0, 0])).bput true = (true, ⟨bits [0, 0, 1, 1], 3⟩) ∧
    ((Ring.zeros 4).putAll (bits [1, 0, 1, 1, 0, 0, 1])).bat 0 = some true ∧
    ((Ring.zeros 4).putAll (bits [1, 0, 1, 1, 0, 0, 1])).bat 4 = none := by decide

/-- V2, the fourth push and the ring after the last. -/
theorem test_symbol_ring :
    ((Ring.zeros 6).pushAll [2, 3, 1]).sput 0 = (2, ⟨bits [0, 0, 1, 1, 0, 1], 2⟩) ∧
    (List.range 3).map ((Ring.zeros 6).pushAll [2, 3, 1, 0, 2]).symbolAt = [1, 0, 2] := by decide

/-! ## TICK, TICKC, NOP -/

/-- V12, tick 10: the first boundary, a Mark of score 7. -/
theorem test_tick_boundary :
    after (.tick false) (machine tiny v12Tick9 []) (fun t =>
      (t.block.counts, t.block.edges, [t.block.subsec, t.block.sos, t.block.tss, t.block.health,
        t.block.healthHistory.getD 0 9])) =
      some ([0, 0, 0, 1, 1, 1, 1, 1, 0, 0], [0, 0, 0, -1, -1, -1, -1, -1, 0, 0], [1, 1, 0, 7, 7]) ∧
    after (.tick false) (machine tiny v12Tick9 []) (fun t => (t.block.newSecond, t.block.lastSym, t.block.ferr, t.out)) =
      some (true, 2, some .marks, .onP true 2 false false) := by decide

/-- V12, tick 12: the edge of bucket 2 is rewritten only when the pointer comes back to it (R29, C1). -/
theorem test_tick_edge_is_state :
    after (.tick false) (machine tiny v12Tick11 []) (fun t =>
      (t.block.edges, [t.block.subsec, t.block.sos, t.block.tss, t.block.health], t.block.newSecond)) =
      some ([0, 0, 1, -1, -1, -1, -1, -1, 0, 0], [3, 3, 2, 7], false) := by decide

/-- `#` is TICK 0 and `_` is TICK 1 (V12, tick 10 again, as a character), and a line end is nothing (R131). -/
theorem test_tickc :
    after (.tickc 0x23) (machine tiny v12Tick9 []) (fun t => (t.block.lastSym, t.block.seq)) = some (2, 11) ∧
    after (.tickc 0x5F) (machine tiny v12Tick9 []) (fun t => t.block.raw.sample 19) = some true ∧
    after (.tickc 0x0A) (machine tiny v12Tick9 []) (fun t => (t.block, t.out)) =
      some (v12Tick9, .onP false 0 false false) := by decide

/-- NOP (R120): 0 on port Q, no event on port P, where `ev_symbol` is `last_sym`. -/
theorem test_nop :
    after (.nop .Q) (machine tiny v12Tick11 []) (fun t => (t.block, t.out)) = some (v12Tick11, .onQ 0 false) ∧
    after (.nop .P) (machine tiny v12Tick11 []) (fun t => (t.block, t.out)) =
      some (v12Tick11, .onP false 2 false false) := by decide

/-- The Mark that completes F1 latches its record (V15, PR3 at tick 3006). -/
theorem test_tick_latches_frame :
    after (.tick true) (machine tiny beforeF1 []) (fun t =>
      (t.block.record, t.block.recValid, t.block.frames, t.block.ferr, t.out)) =
      some (recordF1, true, 1, none, .onP true 2 true false) := by decide

/-! ## The classifier -/

/-- V8, V9a, V10b: Invalid; a tie in B; more than half of C. -/
theorem test_decide_symbol :
    decideSymbol 15 15 0 15 = 3 ∧ decideSymbol 15 15 7 0 = 0 ∧ decideSymbol 15 15 8 0 = 1 ∧
    decideSymbol 15 15 15 7 = 1 ∧ decideSymbol 15 15 15 8 = 2 := by decide

/-- The scores of V6, V7, V8, V9b, V10a, V11. -/
theorem test_slot_score :
    slotScore Params.default 0 0 0 0 0 = 40 ∧ slotScore Params.default 2 10 15 15 10 = 40 ∧
    slotScore Params.default 3 10 0 15 0 = 0 ∧ slotScore Params.default 1 10 8 0 0 = 43 ∧
    slotScore Params.default 1 10 15 7 0 = 43 ∧ slotScore Params.default 0 9 1 0 0 = 48 := by decide

/-- The interval boundaries at 10, 25 and 125 ticks a second (95_test_vectors.md, after V11). -/
theorem test_bounds :
    [10, 25, 125].map (fun n => [bucketOf 200 n, bucketOf 500 n, bucketOf 800 n]) =
      [[2, 5, 8], [5, 13, 20], [25, 63, 100]] := by decide

/-! ## The frame decoder -/

/-- V15, V16. -/
theorem test_frames_decode :
    decodeWindow .reject frameF1 = .decoded recordF1 ∧
    decodeWindow .reject frameF2 = .decoded ⟨0, 366, 23, 59, 0, 1, 1, 0, -4⟩ := by decide

/-- V18, V21, V23, V24, V26. -/
theorem test_frames_rejected :
    decodeWindow .reject (changed [(0, 1)]) = .rejected .marks ∧
    decodeWindow .reject (changed [(4, 1)]) = .rejected .zeros ∧
    decodeWindow .reject (changed [(16, 3)]) = .rejected .invalid ∧
    decodeWindow .reject (changed [(5, 1), (6, 0), (7, 1), (8, 0)]) = .rejected .digit ∧
    decodeWindow .reject (changed [(36, 1), (37, 1), (38, 1)]) = .rejected .sign := by decide

/-- V28: no range check; V29a and V29b: the order of the checks. -/
theorem test_frames_order :
    decodeWindow .reject (changed [(1, 1), (2, 1), (3, 1)]) = .decoded { recordF1 with minute := 73 } ∧
    decodeWindow .reject (changed [(4, 3)]) = .rejected .zeros ∧
    decodeWindow .reject (changed [(4, 1), (5, 2)]) = .rejected .marks := by decide

/-! ## The consumer's reads -/

/-- RDBIT, RDSYM and RDHH in the state of V12 after tick 11: logical for the first two, physical for the third. -/
theorem test_indexed_reads :
    after (.rdbit 11) (machine tiny v12Tick11 []) State.out = some (.onQ 1 false) ∧
    after (.rdbit 10) (machine tiny v12Tick11 []) State.out = some (.onQ 0 false) ∧
    after (.rdsym 60) (machine tiny v12Tick11 []) State.out = some (.onQ 2 false) ∧
    after (.rdhh 0) (machine tiny v12Tick11 []) State.out = some (.onQ 7 false) := by decide

/-- RDCNT, and RDEDGE sign-extended (PR1 reads the same −1). -/
theorem test_array_reads :
    after (.rdcnt 3) (machine tiny v12Tick11 []) State.out = some (.onQ 1 false) ∧
    after (.rdedge 3) (machine tiny v12Tick11 []) State.out = some (.onQ 0xFFFFFFFF false) := by decide

/-- RDREG: the registers of V12 after tick 11; STATUS is `ferr` 1, `last_sym` 2 (R92); SYMHEAD is a slot. -/
theorem test_rdreg :
    [0x00, 0x01, 0x02, 0x03, 0x04, 0x05, 0x06, 0x07].map
      (fun r => after (.rdreg r) (machine tiny v12Tick11 []) State.out) =
      [12, 2, 1, 1, 7, 0x30, 12, 1].map (fun v => some (Response.onQ v false)) := by decide

/-- FDEC 0 to 9 on F1 (PR3 after tick 3006), and UT1 of F2 sign-extended. -/
theorem test_fdec :
    [0, 1, 2, 3, 4, 5, 6, 7, 8, 9].map (fun k => after (.fdec k) (machine tiny holdingF1 []) State.out) =
      [0, 26, 314, 17, 23, 0, 0, 0, 0, 1].map (fun v => some (Response.onQ v false)) ∧
    after (.fdec 9) (machine tiny { holdingF1 with sring := ringOf (0 :: frameF2) } []) State.out =
      some (.onQ 0xFFFFFFFC false) := by decide

/-- V39. -/
theorem test_health :
    [3050, 2976, 2959, 2958, 0].map (fun h => (healthPct Params.default h, healthOk Params.default h)) =
      [(100, true), (97, true), (97, true), (96, false), (0, false)] := by decide

theorem test_phase_err :
    [0, 7, 24, 25, 49].map (fun s => sext (phaseErr Params.default s)) =
      [0x00000000, 0x00000007, 0x00000018, 0xFFFFFFE7, 0xFFFFFFFF] := by decide

/-! ## Faults -/

/-- PR4: an index at the capacity halts the block; nothing else is written. -/
theorem test_bounds_fault :
    after (.rdbit 20) (machine tiny v12Tick9 []) State.block =
      some { v12Tick9 with fault := true, faultCause := .bounds } := by decide

/-- PR4: a halted block takes no sample. -/
theorem test_halted_tick :
    after (.tick true) (machine tiny haltedBlock []) State.block = some haltedBlock := by decide

/-- PR5: an illegal word halts the block with cause 2. -/
theorem test_illegal_fault :
    afterStep (machine tiny v12Tick9 [⟨false, none, some 0xD00B⟩]) State.block =
      some { v12Tick9 with fault := true, faultCause := .illegal } ∧
    afterStep (machine tiny v12Tick9 [⟨false, none, some 0xD00B⟩]) (fun t => (t.pins.fault, t.pins.faultCause)) =
      some (true, 2) := by decide

/-- `withFetchWord` presents the word on the port that accepts it (R83), and reset drops the words presented with it. -/
theorem test_fetch_and_reset :
    step (State.reset.withFetchWord 16 0xE003) = exec (.fdec 3) State.reset ∧
    afterStep (machine tiny haltedBlock [⟨true, some 0x1001, none⟩]) State.block = some (Block.reset tiny) :=
  ⟨rfl, by decide⟩

/-! ## The assembler and the calendar -/

/-- R97: a repetition, a text fixture and a snapshot. -/
theorem test_assemble :
    assemble tiny ".text \"_#\" SNAP SOS, 3" =
      some [(.P, 0x205F), (.P, 0x2023), (.Q, 0xD000), (.Q, 0xD002), (.Q, 0xD003), (.Q, 0xD000)] := by decide

/-- The raw words of PR5, illegal on their ports; without a prefix a number is no command. -/
theorem test_assemble_raw_word :
    assemble tiny "P: 0x1002 ; TICK with a reserved bit set\nQ: 0x3000" = some [(.P, 0x1002), (.Q, 0x3000)] ∧
    assemble tiny "0x3000" = none ∧ assemble tiny "Q: 0x10000" = none := by decide

/-- V30, V31: a leap second inserted, one omitted. -/
theorem test_leap_seconds :
    advanceSeconds Params.default ⟨0, 366, 23, 59, 60, 1, 1, 0, -4⟩ 1 = ⟨1, 1, 0, 0, 0, 1, 0, 0, 6⟩ ∧
    advanceSeconds Params.default ⟨0, 366, 23, 59, 58, 1, 1, 0, 3⟩ 1 = ⟨1, 1, 0, 0, 0, 1, 0, 0, -7⟩ := by decide

/-- V33, V34: DST and the year at the day rollover. -/
theorem test_rollover :
    advanceSeconds Params.default ⟨26, 100, 23, 59, 59, 0, 0, 2, 0⟩ 1 = ⟨26, 101, 0, 0, 0, 0, 0, 3, 0⟩ ∧
    advanceSeconds Params.default ⟨24, 365, 23, 59, 59, 1, 0, 0, 0⟩ 1 = ⟨24, 366, 0, 0, 0, 1, 0, 0, 0⟩ := by decide

/-- V37, V38: the absolute second, and the local time on the day daylight time starts. -/
theorem test_local_time :
    toUtc ⟨26, 314, 17, 23, 0, 0, 0, 0, 1⟩ = 847646580 ∧
    applyZoneAndDst ⟨26, 67, 8, 0, 0, 0, 0, 2, 0⟩ (-21600) true = some ⟨26, 67, 3, 0, 0⟩ ∧
    applyZoneAndDst ⟨0, 366, 23, 59, 60, 1, 1, 0, 0⟩ (-21600) true = some ⟨0, 366, 17, 59, 60⟩ := by decide

/-! ## Witnesses: the hypotheses of each statement, met together, at the ends of their ranges -/

theorem witness_DecodeOfEncodeIsTheCommand :
    (Instr.rdreg 0x26).wellFormed = true ∧ (Instr.fdec 9).wellFormed = true ∧ (Instr.tickc 0xFF).wellFormed = true := by
  decide

theorem witness_EncodeOfDecodedIsTheWord : decode .Q 0xD026 = .command (.rdreg 0x26) := by decide

theorem witness_DecodingFollowsTheTable :
    (0xE009 : Cmd) &&& Opcode.fdec.row.mask = Opcode.fdec.row.pattern ∧ Opcode.fdec.accepted .Q = true ∧
    ((0xE009 : Cmd).extractLsb' 0 4).toNat ≤ 9 ∧ assignedRegister ((0xD026 : Cmd).extractLsb' 0 8) = true := by decide

/-- Words for each clause, at the ends of the ranges it names. -/
theorem witness_IllegalWordsAreRejected :
    (([0x3000, 0x7FFF, 0xF000] : List Cmd).all fun w =>
      decide ((w.extractLsb' 12 4).toNat ∈ [0x3, 0x4, 0x5, 0x6, 0x7, 0xF])) = true ∧
    (([0x1000, 0x2000] : List Cmd).all fun w => decide ((w.extractLsb' 12 4).toNat ∈ [0x1, 0x2])) = true ∧
    (([0x8000, 0xE000] : List Cmd).all fun w =>
      decide ((w.extractLsb' 12 4).toNat ∈ [0x8, 0x9, 0xA, 0xB, 0xC, 0xD, 0xE])) = true ∧
    ((0x0001 : Cmd).extractLsb' 12 4 = 0x0 ∧ (0x0001 : Cmd).extractLsb' 0 12 ≠ 0) ∧
    ((0x1002 : Cmd).extractLsb' 12 4 = 0x1 ∧ (0x1002 : Cmd).extractLsb' 1 11 ≠ 0) ∧
    ((0x2100 : Cmd).extractLsb' 12 4 = 0x2 ∧ (0x2100 : Cmd).extractLsb' 8 4 ≠ 0) ∧
    ((0xD100 : Cmd).extractLsb' 12 4 = 0xD ∧ (0xD100 : Cmd).extractLsb' 8 4 ≠ 0) ∧
    ((0xE010 : Cmd).extractLsb' 12 4 = 0xE ∧ (0xE010 : Cmd).extractLsb' 4 8 ≠ 0) := by decide

theorem witness_IllegalWordsAreRejected_operands :
    (([0xD00B, 0xD00F, 0xD019, 0xD01F, 0xD027, 0xD0FF] : List Cmd).all fun w =>
      decide (w.extractLsb' 12 4 = 0xD ∧ w.extractLsb' 8 4 = 0 ∧
        ((0x0B ≤ (w.extractLsb' 0 8).toNat ∧ (w.extractLsb' 0 8).toNat ≤ 0x0F) ∨
         (0x19 ≤ (w.extractLsb' 0 8).toNat ∧ (w.extractLsb' 0 8).toNat ≤ 0x1F) ∨
         0x27 ≤ (w.extractLsb' 0 8).toNat))) = true ∧
    (([0xE00A, 0xE00F] : List Cmd).all fun w =>
      decide (w.extractLsb' 12 4 = 0xE ∧ w.extractLsb' 4 8 = 0 ∧ 10 ≤ (w.extractLsb' 0 4).toNat)) = true := by decide

theorem witness_StepRunsTheDecodedCommand :
    (machine tiny v12Tick9 [⟨false, some 0x1001, none⟩]).inputs = ⟨false, some 0x1001, none⟩ :: [] ∧
    decode .P 0x1001 = .command (.tick true) ∧ decode .Q 0xD000 = .command (.rdreg 0) ∧
    (machine tiny v12Tick9 [⟨false, none, some 0xD000⟩]).inputs = ⟨false, none, some 0xD000⟩ :: [] ∧
    (machine tiny v12Tick9 [⟨false, some 0x1001, some 0xD000⟩]).inputs = ⟨false, some 0x1001, some 0xD000⟩ :: [] := by
  decide

/-- Two commands, a command and an illegal word, an illegal word and a command. -/
theorem witness_ProducerCommandComesFirst :
    (machine tiny v12Tick9 [⟨false, some 0x1001, some 0xD000⟩]).inputs = ⟨false, some 0x1001, some 0xD000⟩ :: [] ∧
    decode .P 0x1001 = .command (.tick true) ∧ decode .Q 0xD000 = .command (.rdreg 0) ∧
    (machine tiny v12Tick9 [⟨false, some 0x1001, some 0xD00B⟩]).inputs = ⟨false, some 0x1001, some 0xD00B⟩ :: [] ∧
    (machine tiny v12Tick9 [⟨false, some 0x1001, some 0xD00B⟩]).Running ∧
    decode .Q 0xD00B = .illegal .unassignedRegister ∧
    (machine tiny v12Tick9 [⟨false, some 0x1003, some 0xD000⟩]).inputs = ⟨false, some 0x1003, some 0xD000⟩ :: [] ∧
    decode .P 0x1003 = .illegal .mustBeZero := by decide

theorem witness_StepAlwaysAnswersNext :
    State.reset.inputs = [] ∧ (machine tiny v12Tick9 [⟨false, none, none⟩]).inputs = ⟨false, none, none⟩ :: [] := by
  decide

theorem witness_ResetInputGivesTheZeroState :
    (machine tiny haltedBlock [⟨true, some 0x1001, none⟩]).inputs = ⟨true, some 0x1001, none⟩ :: [] := by decide

theorem witness_ResetOutputs :
    Params.default.Legal ∧ Params.default.healthPctThr ≠ 0 ∧ (1999#12).toNat < Params.default.buffer ∧
    (60#12).toNat < Params.default.symbols ∧ (49#12).toNat < Params.default.subsec := by decide

/-- Legal configurations at both ends of R6, R7 and R8. -/
theorem witness_InvHoldsAtReset :
    tiny.Legal ∧ Params.Legal { Params.default with subsec := 2, history := 1 } ∧
    Params.Legal { Params.default with subsec := 255, history := 16, symbols := 4096 } := by decide

/-- The invariant holds in states that are not the reset state. -/
theorem block_inv_v12Tick9 : v12Tick9.Inv tiny where
  storage := by decide
  subsecRange := by decide
  sosRange := by decide
  tssRange := by decide
  aligned := by decide
  symAligned := by decide
  countsAgree := by decide
  edgesRange := by decide
  scoresRange := by decide
  healthAgree := by decide
  newestSym := by decide
  causeAgree := by decide
  unlatched := by decide
  recordRange := by decide

theorem block_inv_v12Tick11 : v12Tick11.Inv tiny where
  storage := by decide
  subsecRange := by decide
  sosRange := by decide
  tssRange := by decide
  aligned := by decide
  symAligned := by decide
  countsAgree := by decide
  edgesRange := by decide
  scoresRange := by decide
  healthAgree := by decide
  newestSym := by decide
  causeAgree := by decide
  unlatched := by decide
  recordRange := by decide

/-- The reading of the scan does not enter the invariant. -/
theorem inv_of_scan {b : Block} (h : b.Inv tiny) (scan : SosScan) (inputs : List Clock) :
    (machine { tiny with sosScan := scan } b inputs).Inv where
  legal := show tiny.Legal by decide
  block :=
    ⟨h.storage, h.subsecRange, h.sosRange, h.tssRange, h.aligned, h.symAligned, h.countsAgree, h.edgesRange,
      h.scoresRange, h.healthAgree, h.newestSym, h.causeAgree, h.unlatched, h.recordRange⟩

theorem inv_v12Tick9 (inputs : List Clock) : (machine tiny v12Tick9 inputs).Inv :=
  inv_of_scan block_inv_v12Tick9 .argmax inputs

theorem witness_EveryStepKeepsInv :
    (machine tiny v12Tick9 [⟨false, some 0x1000, none⟩]).Inv ∧
    ∃ t, step (machine tiny v12Tick9 [⟨false, some 0x1000, none⟩]) = .next t :=
  ⟨inv_v12Tick9 _, _, rfl⟩

theorem witness_CountsAndHealthStayInRange :
    (machine tiny v12Tick9 []).Inv ∧ 9 < (machine tiny v12Tick9 []).cfg.subsec :=
  ⟨inv_v12Tick9 _, by decide⟩

theorem witness_rings : 0 < (Ring.zeros 4).cap ∧ 0 < (Ring.zeros 6).cap / 2 := by decide

theorem witness_NopDoesNothing : (machine tiny v12Tick11 []).Running := by decide

theorem witness_TickTakesTheSample :
    (machine tiny v12Tick9 []).Inv ∧ (machine tiny v12Tick9 []).Running ∧
    18 + 1 < (machine tiny v12Tick9 []).cfg.buffer ∧ 9 ≠ (machine tiny v12Tick9 []).block.subsec :=
  ⟨inv_v12Tick9 _, by decide⟩

/-- A positive edge after V12's tick 12 at every reading; no positive edge after its tick 10. -/
theorem witness_TickFindsTheSteepestRise (scan : SosScan) :
    (machine { tiny with sosScan := scan } v12Tick11 []).Inv ∧ (machine { tiny with sosScan := scan } v12Tick11 []).Running ∧
    after (.tick false) (machine { tiny with sosScan := scan } v12Tick11 []) (fun t => t.block.edges.getD 2 0) = some 1 ∧
    (machine { tiny with sosScan := scan } v12Tick9 []).Inv ∧ (machine { tiny with sosScan := scan } v12Tick9 []).Running ∧
    after (.tick false) (machine { tiny with sosScan := scan } v12Tick9 []) (fun t => t.block.edges.all (· ≤ 0)) =
      some true :=
  ⟨inv_of_scan block_inv_v12Tick11 scan [], rfl, by cases scan <;> decide, inv_of_scan block_inv_v12Tick9 scan [], rfl,
    by cases scan <;> decide⟩

/-- A boundary by the match of `subsec`, a forced one, and none. -/
theorem witness_TickDeclaresTheBoundary :
    (machine tiny v12Tick9 []).Running ∧
    after (.tick false) (machine tiny v12Tick9 []) (fun t => t.block.newSecond) = some true ∧
    after (.tick true) (machine tiny beforeF1 []) (fun t => t.block.newSecond) = some true ∧
    after (.tick false) (machine tiny v12Tick11 []) (fun t => t.block.newSecond) = some false := by decide

theorem witness_TickFrame :
    (machine tiny v12Tick11 []).Running ∧
    after (.tick false) (machine tiny v12Tick11 []) (fun t => t.block.newSecond) = some false := by decide

theorem witness_TickClosesTheSecond :
    (machine tiny v12Tick9 []).Inv ∧ (machine tiny v12Tick9 []).Running ∧
    after (.tick false) (machine tiny v12Tick9 []) (fun t => t.block.newSecond) = some true :=
  ⟨inv_v12Tick9 _, by decide⟩

/-- A boundary whose frame decodes, one whose frame is rejected, and a TICK that is no boundary. -/
theorem witness_TickAttemptsAFrameOnAMark :
    after (.tick true) (machine tiny beforeF1 []) (fun t =>
      (t.block.newSecond, t.block.lastSym, fdecode tiny t.block.sring)) = some (true, 2, .decoded recordF1) ∧
    after (.tick false) (machine tiny v12Tick9 []) (fun t =>
      (t.block.newSecond, t.block.lastSym, fdecode tiny t.block.sring)) = some (true, 2, .rejected .marks) ∧
    after (.tick false) (machine tiny v12Tick11 []) (fun t => t.block.newSecond) = some false := by decide

theorem witness_TickEvents : (machine tiny beforeF1 []).Running := by decide

theorem witness_TickcTakesACharacter :
    (machine tiny v12Tick9 []).Running ∧ (0x0A : BitVec 8) ≠ 0x5F ∧ (0x0A : BitVec 8) ≠ 0x23 := by decide

theorem witness_TextFixtureIsItsSamples :
    (machine tiny v12Tick9 (([0x5F, 0x0A, 0x23] : List (BitVec 8)).map fun c =>
      Clock.single .P (encode (.tickc c)))).Running ∧
    fixtureSamples [0x5F, 0x0A, 0x23] = [true, false] := by decide

/-- At the longest run the statement speaks of. -/
theorem witness_DebounceFloor :
    (Block.reset Params.default).tss = 0 ∧ Params.default.subsec / 2 ≤ Params.default.forceTss ∧
    (List.replicate 26 true).length ≤ Params.default.subsec / 2 + 1 := by decide

theorem witness_BoundaryIsForced :
    (Block.reset Params.default).tss = 0 ∧ (List.replicate 52 true).length = Params.default.forceTss + 2 := by decide

theorem witness_RdbitReadsTheWindow :
    (machine tiny v12Tick9 []).Running ∧ Memory.wf tiny v12Tick9 ∧ (19#12).toNat < tiny.buffer := by decide

theorem witness_RdsymReadsTheSymbolRing :
    (machine tiny v12Tick11 []).Running ∧ Memory.wf tiny v12Tick11 ∧ (60#12).toNat < tiny.symbols := by decide

theorem witness_ArrayReads :
    (machine tiny v12Tick11 []).Running ∧ (9#12).toNat < tiny.subsec ∧ (60#12).toNat < tiny.symbols := by decide

theorem witness_RdregFollowsTheMap :
    (machine tiny v12Tick11 []).Running ∧
    ∀ r ∈ ([0x0B, 0x0F, 0x19, 0x1F, 0x27, 0xFF] : List (BitVec 8)),
      (0x0B ≤ r.toNat ∧ r.toNat ≤ 0x0F) ∨ (0x19 ≤ r.toNat ∧ r.toNat ≤ 0x1F) ∨ 0x27 ≤ r.toNat := by decide

theorem witness_PhaseErrorIsTheRingDistance : Params.Legal { Params.default with subsec := 255, history := 16 } := by
  decide

/-- A selector above 9; a window that is rejected; a window that decodes. -/
theorem witness_FdecAnswersFromTheWindow :
    (machine tiny holdingF1 []).Running ∧ 10 ≤ (10#4).toNat ∧ fdecode tiny holdingF1.sring = .decoded recordF1 ∧
    (machine tiny v12Tick11 []).Running ∧ fdecode tiny v12Tick11.sring = .rejected .marks := by decide

/-- On success and on failure of the decode attempt. -/
theorem witness_FdecAgreesWithTheLatch :
    (machine tiny beforeF1 []).Running ∧ (machine tiny v12Tick9 []).Running ∧
    after (.tick true) (machine tiny beforeF1 []) (fun t => (t.block.newSecond, t.block.lastSym, t.block.ferr)) =
      some (true, 2, none) ∧
    after (.tick false) (machine tiny v12Tick9 []) (fun t => (t.block.newSecond, t.block.lastSym, t.block.ferr)) =
      some (true, 2, some .marks) := by decide

theorem witness_QueriesWriteNothing :
    (Instr.rdsym 0).port = .Q ∧ (machine tiny v12Tick9 []).Running ∧
    after (.rdsym 0) (machine tiny v12Tick9 []) (fun t => t.block.fault) = some false ∧
    after (.rdsym 61) (machine tiny v12Tick9 []) (fun t => t.block.fault) = some true := by decide

/-- Each index at the capacity itself. -/
theorem witness_IndexOutOfRangeFaults :
    (machine tiny v12Tick9 []).Running ∧ Memory.wf tiny v12Tick9 ∧ tiny.buffer ≤ (20#12).toNat ∧
    tiny.symbols ≤ (61#12).toNat ∧ tiny.subsec ≤ (10#12).toNat := by decide

theorem witness_IllegalWordFaults :
    (machine tiny v12Tick9 [⟨false, some 0xD000, none⟩]).Running ∧ decode .P 0xD000 = .illegal .wrongPort ∧
    (machine tiny v12Tick9 [⟨false, none, some 0xE00A⟩]).Running ∧ decode .Q 0xE00A = .illegal .unassignedSelector ∧
    (machine tiny v12Tick9 [⟨false, some 0xD000, some 0xE00A⟩]).Running ∧
    (machine tiny v12Tick9 [⟨false, some 0xD000, some 0xE00A⟩]).inputs = ⟨false, some 0xD000, some 0xE00A⟩ :: [] := by
  decide

theorem witness_ProducerCommandsNeverFault :
    (machine tiny v12Tick9 []).Running ∧ (Instr.nop .P).port = .P ∧ (Instr.tick true).port = .P ∧
    (Instr.tickc 0).port = .P := by decide

theorem witness_HaltedBlockOnlyAnswers :
    (machine tiny haltedBlock [⟨false, some 0x1001, none⟩]).Halted ∧
    (machine tiny haltedBlock [⟨false, none, some 0xF000⟩]).Halted ∧
    (machine tiny haltedBlock [⟨false, some 0x3000, some 0xD000⟩]).Halted := by decide

theorem witness_OnlyResetLeavesTheHaltedState :
    (machine tiny haltedBlock [⟨false, some 0x1001, none⟩]).Halted ∧
    (machine tiny haltedBlock [⟨false, some 0x1001, none⟩]).NoReset := by decide

/-- A step that leaves the block as it was, and one that counts a sample. -/
theorem witness_EveryChangeCountsASample :
    (machine tiny v12Tick9 [⟨false, none, some 0xD000⟩]).NoReset ∧
    afterStep (machine tiny v12Tick9 [⟨false, none, some 0xD000⟩]) (fun t => (t.block.fault, t.block.seq)) =
      some (false, 10) ∧
    (machine tiny v12Tick9 [⟨false, some 0x1001, none⟩]).NoReset ∧
    afterStep (machine tiny v12Tick9 [⟨false, some 0x1001, none⟩]) (fun t => (t.block.fault, t.block.seq)) =
      some (false, 11) := by decide

theorem witness_EqualSeqIsOneSnapshot :
    (machine tiny v12Tick9 [⟨false, none, some 0xD000⟩]).NoReset ∧
    ∃ t, Host.Core.run core 1 (machine tiny v12Tick9 [⟨false, none, some 0xD000⟩]) = .next t ∧ t.Running ∧
      t.block.seq = (machine tiny v12Tick9 [⟨false, none, some 0xD000⟩]).block.seq :=
  ⟨by decide, _, rfl, rfl, rfl⟩

/-- A raw ring whose window is these samples. -/
def second (l : List Nat) : Ring := ⟨bits (List.replicate 10 0 ++ l), 0⟩

/-- A second for each of the four decisions, `P1`, `P2`, `P3` being 2, 5, 8. -/
theorem witness_ClassifierDecides :
    2 ≤ tiny.subsec ∧
    [second [1, 1, 1, 1, 0, 1, 1, 0, 0, 0], second [1, 1, 1, 0, 0, 1, 1, 0, 0, 0], second [1, 1, 1, 1, 0, 1, 0, 0, 0, 0],
      second [1, 1, 1, 0, 0, 1, 0, 0, 0, 0]].map
        (fun r => (reducedIn tiny r 2 5, reducedIn tiny r 5 8)) = [(2, 2), (1, 2), (2, 1), (1, 1)] := by decide

theorem witness_ScoreCountsAgreement :
    2 ≤ tiny.subsec ∧ (classify tiny (second [1, 1, 0, 0, 0, 1, 1, 1, 0, 0])).sym = 3 ∧
    (classify tiny (second [1, 1, 1, 1, 1, 0, 0, 0, 0, 0])).sym ≠ 3 := by decide

theorem witness_CleanSecondsClassify :
    2 ≤ tiny.subsec ∧ boundA tiny < boundB tiny ∧ boundB tiny < boundC tiny ∧
    SecondIs tiny (second [1, 1, 0, 0, 0, 0, 0, 0, 0, 0]) (boundA tiny) ∧
    SecondIs tiny (second [1, 1, 1, 1, 1, 0, 0, 0, 0, 0]) (boundB tiny) ∧
    SecondIs tiny (second [1, 1, 1, 1, 1, 1, 1, 1, 0, 0]) (boundC tiny) := by decide

/-- A window for each of the six clauses: the first check that fails is the one named, the checks before it pass. -/
theorem witness_FrameChecksInOrder :
    marksRight (changed [(29, 0)]) = false ∧
    (marksRight (changed [(35, 1)]) = true ∧ zerosRight (changed [(35, 1)]) = false) ∧
    (marksRight (changed [(16, 3)]) = true ∧ zerosRight (changed [(16, 3)]) = true ∧
      hasInvalid (changed [(16, 3)]) = true) ∧
    (marksRight (changed [(5, 1), (7, 1), (8, 0)]) = true ∧ zerosRight (changed [(5, 1), (7, 1), (8, 0)]) = true ∧
      hasInvalid (changed [(5, 1), (7, 1), (8, 0)]) = false ∧ groupValue (changed [(5, 1), (7, 1), (8, 0)]) .minUnits = 10) ∧
    (digitOverflow (changed [(36, 0), (38, 0)]) = false ∧ groupValue (changed [(36, 0), (38, 0)]) .ut1Sign = 0) ∧
    (marksRight frameF1 = true ∧ zerosRight frameF1 = true ∧ hasInvalid frameF1 = false ∧ digitOverflow frameF1 = false ∧
      groupValue frameF1 .ut1Sign = 5) := by decide

/-- With a positive and with a negative sign code. -/
theorem witness_FrameFields :
    decodeWindow .reject frameF1 = .decoded recordF1 ∧ groupValue frameF1 .ut1Sign = 5 ∧
    decodeWindow .reject frameF2 = .decoded ⟨0, 366, 23, 59, 0, 1, 1, 0, -4⟩ ∧ groupValue frameF2 .ut1Sign = 2 := by
  decide

theorem witness_FrameRanges : decodeWindow .reject frameF2 = .decoded ⟨0, 366, 23, 59, 0, 1, 1, 0, -4⟩ := by decide

/-- A leap minute with each sign of the offset, in a leap year and in another, and a minute that is none. -/
theorem witness_MinuteLength :
    leapMinute ⟨0, 366, 23, 59, 0, 1, 1, 0, -1⟩ = true ∧ leapMinute ⟨24, 182, 23, 59, 0, 1, 1, 0, 1⟩ = true ∧
    leapMinute ⟨26, 181, 23, 59, 0, 0, 1, 0, 0⟩ = true ∧ leapMinute ⟨26, 182, 23, 59, 0, 0, 1, 0, -1⟩ = false := by decide

theorem witness_DstMovesAtTheDayRollover :
    let t : CalRecord := ⟨26, 100, 23, 59, 0, 0, 0, 1, 0⟩
    let u : CalRecord := ⟨26, 100, 23, 59, 0, 0, 0, 2, 0⟩
    let v : CalRecord := ⟨26, 100, 23, 58, 0, 0, 0, 2, 0⟩
    (t.hour = 23 ∧ t.minute = 59 ∧ t.dst = 1) ∧ (u.hour = 23 ∧ u.minute = 59 ∧ u.dst = 2) ∧
    (v.hour ≤ 23 ∧ v.minute ≤ 59 ∧ ¬(v.hour = 23 ∧ v.minute = 59)) := by decide

/-- The fixture's second, with each of the states that move, and a run that ends in a state 2 it began in. -/
theorem witness_DstMovesAtTheDayRollover_seconds :
    secondsInMinute ⟨26, 100, 23, 59, 59, 0, 0, 2, 0⟩ = 60 ∧ secondsInMinute ⟨26, 100, 23, 59, 59, 0, 0, 1, 0⟩ = 60 ∧
    (advanceSeconds Params.default ⟨26, 100, 12, 0, 0, 0, 0, 2, 0⟩ 60).dst = 2 ∧
    (advanceMinutes Params.default ⟨26, 100, 12, 0, 0, 0, 0, 1, 0⟩ 1).dst = 1 := by decide

theorem witness_AdvancingKeepsWellFormed :
    Params.default.ut1Relax = 10 ∧ CalRecord.WellFormed ⟨0, 366, 23, 59, 60, 1, 1, 3, -9⟩ := by decide

/-- A leap year by the third clause, common years, among them 2100; records at the end of a leap and a common year. -/
theorem witness_MinuteStepIsOneMinuteOfUtc :
    LeapYear 0 ∧ LeapYear 24 ∧ ¬LeapYear 26 ∧ ¬LeapYear 100 ∧
    CalRecord.WellFormed ⟨0, 366, 23, 59, 60, 1, 1, 0, -4⟩ ∧ CalRecord.WellFormed ⟨25, 365, 23, 59, 0, 0, 0, 0, 0⟩ := by
  decide

theorem witness_SecondsStayInTheirMinute :
    CalRecord.WellFormed ⟨0, 366, 23, 59, 59, 1, 1, 0, -4⟩ ∧
    (advanceSeconds Params.default ⟨0, 366, 23, 59, 59, 1, 1, 0, -4⟩ 1).second = 60 := by decide

theorem witness_SecondsByDivision : (⟨26, 365, 23, 59, 59, 0, 0, 0, 0⟩ : CalRecord).ls = 0 := by decide

theorem witness_FromAbsInvertsToUtc :
    CalRecord.WellFormed ⟨24, 366, 23, 59, 59, 1, 0, 0, 0⟩ ∧ (⟨24, 366, 23, 59, 59, 1, 0, 0, 0⟩ : CalRecord).second ≤ 59 := by
  decide

end Sys2Proof.Tests
end

section
/-! Scope (00_scope.md): every step answers, and an idle clock changes nothing in the block. -/

namespace Sys2Proof.Machine

/-- With no clock left, or an idle one first, only the inputs move on (log 2). -/
theorem present_idle_clock {s : State} {rest : List Clock}
    (h : s.inputs = [] ∨ s.inputs = ⟨false, none, none⟩ :: rest) :
    s.present = .nothing { s with inputs := s.inputs.tail } := by
  obtain ⟨cfg, block, inputs, out, freeCtr⟩ := s
  rcases h with rfl | rfl <;> rfl

theorem step_idle_clock {s : State} {rest : List Clock}
    (h : s.inputs = [] ∨ s.inputs = ⟨false, none, none⟩ :: rest) :
    step s = .next { s with inputs := s.inputs.tail }.idle := by
  rw [step, present_idle_clock h]

/-- Settles O9: a step always answers and keeps the parameters, and an idle clock leads to the one state
`step_idle_clock` names. -/
theorem stepAlwaysAnswersNext : Obligations.StepAlwaysAnswersNext := by
  intro s rest
  obtain ⟨t, ht⟩ := step_total s
  obtain ⟨hcfg, -⟩ := step_blockStep ht
  refine ⟨t, ht, hcfg, fun hidle => ?_⟩
  rw [step_idle_clock hidle] at ht
  cases ht
  exact ⟨rfl, rfl⟩

end Sys2Proof.Machine
end

section
/-! Facts about a block that meets the invariant, and about the ranges of a decoded record, that the proofs on the
state rest on (R22, R24, R27, R33, R36, R41). -/

namespace Sys2Proof.Machine

/-! ### Storage of a block that meets the invariant -/

namespace Block.Inv

variable {p : Params} {b : Block}

theorem raw_cap (h : b.Inv p) : b.raw.cap = p.buffer := h.storage.1

theorem raw_head_lt (h : b.Inv p) : b.raw.head < b.raw.cap := h.raw_cap ▸ h.storage.2.1

theorem sring_cap (h : b.Inv p) : b.sring.cap = 2 * p.symbols := h.storage.2.2.1

theorem sring_head_lt (h : b.Inv p) : b.sring.head < b.sring.cap := h.sring_cap ▸ h.storage.2.2.2.1

theorem counts_length (h : b.Inv p) : b.counts.length = p.subsec := h.storage.2.2.2.2.1

theorem edges_length (h : b.Inv p) : b.edges.length = p.subsec := h.storage.2.2.2.2.2.1

theorem scores_length (h : b.Inv p) : b.healthHistory.length = p.symbols := h.storage.2.2.2.2.2.2

/-- The head of the symbol ring names a slot of `health_history` (R35). -/
theorem slot_lt (h : b.Inv p) : b.sring.slot < p.symbols := by
  have := h.sring_head_lt
  rw [h.sring_cap] at this
  unfold Ring.slot
  omega

end Block.Inv

/-- The window is whole seconds (R7). -/
theorem subsec_dvd_buffer (p : Params) : p.subsec ∣ p.buffer := ⟨p.history, rfl⟩

/-! ### What is counted and scored -/

@[simp] theorem bucketCount_zeros (p : Params) (cap k : Nat) : bucketCount p (Ring.zeros cap) k = 0 := by
  simp [bucketCount]

/-- "In particular `0 ≤ counts[b] ≤ HISTORY`" (R27). -/
theorem Block.Inv.counts_le {p : Params} {b : Block} (h : b.Inv p) {k : Nat} (hk : k < p.subsec) :
    b.counts.getD k 0 ≤ p.history :=
  h.countsAgree k hk ▸ bucketCount_le p b.raw k

theorem nextCounts_le {p : Params} {b : Block} (h : b.Inv p) (smp : Bool) {k : Nat} (hk : k < p.subsec) :
    (nextCounts smp b).getD k 0 ≤ p.history :=
  nextCounts_agree smp h k hk ▸ bucketCount_le p _ k

/-- Step 2 puts the new sample into the bucket of entry and takes the evicted one out of it (R122). -/
theorem nextCounts_entry {p : Params} {b : Block} (h : b.Inv p) (smp : Bool) :
    (nextCounts smp b).getD b.subsec 0 + (b.raw.sample 0).toNat = b.counts.getD b.subsec 0 + smp.toNat := by
  have hb := bucketCount_bput h.raw_cap h.storage.2.1 smp b.subsec
  rwa [if_pos h.aligned, if_pos h.aligned, ← nextCounts_agree smp h _ h.subsecRange,
    ← h.countsAgree _ h.subsecRange] at hb

theorem nextCounts_other (smp : Bool) (b : Block) {k : Nat} (hk : k ≠ b.subsec) :
    (nextCounts smp b).getD k 0 = b.counts.getD k 0 := by
  rw [nextCounts, getD_set, if_neg fun e => hk e.1.symm]

/-- Step 3 rewrites the edge of the bucket of entry (R123). -/
theorem nextEdges_entry {p : Params} {b : Block} (h : b.Inv p) (smp : Bool) :
    (nextEdges p smp b).getD b.subsec 0 = edgeAt p (nextCounts smp b) b.subsec := by
  rw [nextEdges, getD_set, if_pos ⟨rfl, h.edges_length ▸ h.subsecRange⟩]

theorem nextEdges_other (p : Params) (smp : Bool) (b : Block) {k : Nat} (hk : k ≠ b.subsec) :
    (nextEdges p smp b).getD k 0 = b.edges.getD k 0 := by
  rw [nextEdges, getD_set, if_neg fun e => hk e.1.symm]

/-- The score of the slot the head names is part of the rolling total (R36). -/
theorem Block.Inv.score_le_health {p : Params} {b : Block} (h : b.Inv p) :
    b.healthHistory.getD b.sring.slot 0 ≤ b.health := by
  have removed := sum_set b.healthHistory b.sring.slot (h.scores_length ▸ h.slot_lt) 0
  rw [h.healthAgree]
  omega

/-- The rolling total changes by the new score less the old one of the slot the head named (R147). -/
theorem closeSecond_health_add {p : Params} {b : Block} (h : b.Inv p) :
    (closeSecond p b).health + b.healthHistory.getD b.sring.slot 0 = b.health + (classify p b.raw).score := by
  have := h.score_le_health
  rw [closeSecond_health]
  omega

theorem closeSecond_healthAgree {p : Params} {b : Block} (h : b.Inv p) :
    (closeSecond p b).health = (closeSecond p b).healthHistory.sum := by
  have replaced := sum_set b.healthHistory b.sring.slot (h.scores_length ▸ h.slot_lt) (classify p b.raw).score
  have added := closeSecond_health_add h
  have total := h.healthAgree
  rw [closeSecond_healthHistory]
  omega

/-- After a push onto the ring of a block the newest symbol is the one pushed (R111, R128). -/
theorem Block.Inv.symbolAt_sput {p : Params} {b : Block} (h : b.Inv p) (v : Symbol) {j : Nat} (hj : j < p.symbols) :
    (b.sring.sput v).2.symbolAt j = if j + 1 = p.symbols then v else b.sring.symbolAt (j + 1) := by
  have half : b.sring.cap / 2 = p.symbols := by rw [h.sring_cap]; omega
  rw [Ring.symbolAt_sput h.sring_head_lt (by rw [h.sring_cap]; omega) v (half ▸ hj), half]

/-! ### The ranges of a decoded record -/

/-- Every group of the layout names symbols that are neither outside the frame nor Mark positions (R78). -/
theorem layout_positions (g : Config.Group) : ∀ pw ∈ layout g, pw.1 < 60 ∧ ¬(pw.1 = 0 ∨ pw.1 % 10 = 9) := by
  cases g <;> decide

/-- Away from the Mark positions an accepted window without Invalid holds bits only (R163, R165). -/
theorem symAt_le_one {w : List Symbol} (hm : marksRight w = true) (hi : hasInvalid w = false) {pos : Nat}
    (hpos : pos < 60) (hn : ¬(pos = 0 ∨ pos % 10 = 9)) : (symAt w pos).toNat ≤ 1 := by
  have not_mark : (symAt w pos).toNat ≠ 2 := fun e => hn (((marksRight_iff w).1 hm pos hpos).1 e)
  have not_invalid : (symAt w pos).toNat ≠ 3 := fun e => by
    rw [(hasInvalid_iff w).2 ⟨pos, hpos, e⟩] at hi; cases hi
  have := (symAt w pos).isLt
  omega

/-- A weighted sum of bits is at most the sum of its weights (R76). -/
theorem weightedSum_le {w : List Symbol} {group : List (Nat × Nat)}
    (h : ∀ pw ∈ group, (symAt w pw.1).toNat ≤ 1) : weightedSum w group ≤ (group.map Prod.snd).sum :=
  List.sum_le_sum fun pw hpw => by simpa using Nat.mul_le_mul_left pw.2 (h pw hpw)

theorem groupValue_le {w : List Symbol} (hm : marksRight w = true) (hi : hasInvalid w = false) (g : Config.Group) :
    groupValue w g ≤ ((layout g).map Prod.snd).sum :=
  weightedSum_le fun pw hpw =>
    symAt_le_one hm hi (layout_positions g pw hpw).1 (layout_positions g pw hpw).2

/-- Without Invalid a flag group is at most the sum of its weights, and every digit group is at most 9 (R41, R171). -/
theorem decodeWindow_inFrameRange {w : List Symbol} {r : CalRecord} (h : decodeWindow .reject w = .decoded r) :
    r.InFrameRange := by
  obtain ⟨hm, -, hi, hd, u, hu, rfl⟩ := decodeWindow_decoded h
  have digit := (digitOverflow_eq_false_iff w).1 hd
  have weights := groupValue_le hm (hi rfl)
  have yearTens := digit .yearTens (by decide)
  have yearUnits := digit .yearUnits (by decide)
  have dayTens := digit .dayTens (by decide)
  have dayUnits := digit .dayUnits (by decide)
  have hourUnits := digit .hourUnits (by decide)
  have minUnits := digit .minUnits (by decide)
  have ut1Mag := digit .ut1Mag (by decide)
  have dayHundreds : groupValue w .dayHundreds ≤ 3 := weights .dayHundreds
  have hourTens : groupValue w .hourTens ≤ 3 := weights .hourTens
  have minTens : groupValue w .minTens ≤ 7 := weights .minTens
  have leapYear : groupValue w .leapYear ≤ 1 := weights .leapYear
  have leapSecond : groupValue w .leapSecond ≤ 1 := weights .leapSecond
  have dst : groupValue w .dst ≤ 3 := weights .dst
  have ut1 := (ut1Offset_eq_some_iff w u).1 hu
  simp only [CalRecord.InFrameRange, buildRecord, true_and]
  omega

/-- Settles O51, by `decodeWindow_inFrameRange`. -/
theorem frameRanges : Obligations.FrameRanges := fun _ _ => decodeWindow_inFrameRange

end Sys2Proof.Machine
end

section
/-! The invariant of a block: it holds at reset and every step keeps it (R20 to R41, R240). -/

namespace Sys2Proof.Machine

/-! ### Reset -/

/-- Every piece of state is zero in the reset state of any parameters (R48). -/
theorem reset_allZero (p : Params) : (Block.reset p).AllZero p where
  rawBits := rfl
  rawHead := rfl
  sringBits := rfl
  sringHead := rfl
  counts := rfl
  edges := rfl
  healthHistory := rfl
  scalars := ⟨rfl, rfl, rfl, rfl, rfl⟩
  latches := ⟨rfl, rfl, rfl, rfl, rfl⟩
  record := rfl
  fault := ⟨rfl, rfl⟩

theorem reset_countsAgree (p : Params) (k : Nat) :
    (Block.reset p).counts.getD k 0 = bucketCount p (Block.reset p).raw k := by
  simp [Block.reset, List.getD_eq_getElem?_getD]

theorem reset_inv {p : Params} (h : p.Legal) : (Block.reset p).Inv p where
  storage := reset_wf h
  subsecRange := legal_subsec_pos h
  sosRange := legal_subsec_pos h
  tssRange := Nat.zero_le _
  aligned := Nat.zero_mod _
  symAligned := rfl
  countsAgree k _ := reset_countsAgree p k
  edgesRange k _ := by simp [Block.reset, List.getD_eq_getElem?_getD]
  scoresRange k _ := by simp [Block.reset, List.getD_eq_getElem?_getD]
  healthAgree := by simp [Block.reset]
  newestSym := Ring.symbolAt_zeros _ _
  causeAgree := by simp [Block.reset]
  unlatched _ := ⟨rfl, rfl⟩
  recordRange _ := show CalRecord.zero.InFrameRange by decide

/-! ### Fault entry -/

/-- Fault entry writes `fault` and a cause that is not 0 (R240, R243). -/
theorem faulted_inv {p : Params} {b : Block} (h : b.Inv p) {cause : FaultCause} (hc : cause ≠ .none) :
    Block.Inv p { b with fault := true, faultCause := cause } :=
  { h with causeAgree := by simp [hc] }

/-! ### TICK -/

/-- Step 3 leaves every edge a difference of two counts of the window (R28, R123). -/
theorem nextEdges_range {p : Params} {b : Block} (h : b.Inv p) (smp : Bool) {k : Nat} (hk : k < p.subsec) :
    -(p.history : Int) ≤ (nextEdges p smp b).getD k 0 ∧ (nextEdges p smp b).getD k 0 ≤ (p.history : Int) := by
  by_cases e : k = b.subsec
  · have below := nextCounts_le h smp hk
    have above := nextCounts_le h smp (Nat.mod_lt (k + 1) (by omega))
    rw [e, nextEdges_entry h, edgeAt, ← e]
    omega
  · rw [nextEdges_other p smp b e]
    exact h.edgesRange k hk

/-- The head of `raw` moves on with `subsec`, since SUBSEC divides BUFFER (R24). -/
theorem track_aligned {p : Params} {b : Block} (h : b.Inv p) (smp : Bool) :
    (track p smp b).raw.head % p.subsec = (track p smp b).subsec := by
  rw [track_raw, Ring.bput_head, h.raw_cap, Nat.mod_mod_of_dvd _ (subsec_dvd_buffer p), track_subsec, ← h.aligned,
    Nat.mod_add_mod]

/-- Steps 1 to 5 keep the invariant (R122 to R125). -/
theorem track_inv {p : Params} {b : Block} (h : b.Inv p) (smp : Bool) : (track p smp b).Inv p :=
  have subsec_pos : 0 < p.subsec := Nat.zero_lt_of_lt h.subsecRange
  { h with
    storage := track_wf h.storage smp
    subsecRange := Nat.mod_lt _ subsec_pos
    sosRange := nextSos_lt subsec_pos _ h.sosRange
    aligned := track_aligned h smp
    countsAgree := nextCounts_agree smp h
    edgesRange := fun _ => nextEdges_range h smp }

/-- Step 7 without a boundary keeps the invariant where `tss` has not passed the forcing threshold (R32, R127). -/
theorem passSecond_inv {p : Params} {b : Block} (h : b.Inv p) (ht : b.tss ≤ p.forceTss) : (passSecond b).Inv p :=
  { h with tssRange := Nat.succ_le_succ ht }

theorem closeSecond_symAligned {p : Params} {b : Block} (h : b.Inv p) : (closeSecond p b).sring.head % 2 = 0 := by
  have := h.symAligned
  rw [closeSecond_sring, Ring.sput_head, h.sring_cap, Nat.mod_mod_of_dvd _ ⟨p.symbols, rfl⟩]
  omega

/-- A boundary scores one slot and leaves the others (R33, R147). -/
theorem closeSecond_scoresRange {p : Params} {b : Block} (hp : p.Legal) (h : b.Inv p) {k : Nat} (hk : k < p.symbols) :
    (closeSecond p b).healthHistory.getD k 0 ≤ p.subsec := by
  rw [closeSecond_healthHistory, getD_set]
  split
  · exact classify_score_le hp.1 _
  · exact h.scoresRange k hk

/-- Step 7 on a boundary keeps the invariant (R128, R147, R40). -/
theorem closeSecond_inv {p : Params} {b : Block} (hp : p.Legal) (h : b.Inv p) : (closeSecond p b).Inv p :=
  { h with
    storage := closeSecond_wf h.storage
    tssRange := Nat.zero_le _
    symAligned := closeSecond_symAligned h
    scoresRange := fun _ => closeSecond_scoresRange hp h
    healthAgree := closeSecond_healthAgree h
    newestSym := by
      have := legal_symbols_pos hp
      rw [closeSecond_sring, h.symbolAt_sput _ (by omega), if_pos (by omega), closeSecond_lastSym] }

/-- Latching the outcome of a decode keeps the invariant (R41, R175, R176). -/
theorem latchFrame_inv {p : Params} {b : Block} (h : b.Inv p) (ring : Ring) : (latchFrame (fdecode p ring) b).Inv p := by
  cases hf : fdecode p ring with
  | rejected e => exact { h with }
  | decoded r =>
    exact { h with
      unlatched := nofun
      recordRange := fun hp => decodeWindow_inFrameRange (by rwa [fdecode, hp] at hf) }

/-- TICK keeps the invariant (R121). -/
theorem tick_inv {p : Params} {b : Block} (hp : p.Legal) (h : b.Inv p) (smp : Bool) : (tick p smp b).1.Inv p := by
  have tracked := track_inv h smp
  rcases tick_cases p smp b with ⟨hb, ht⟩ | ⟨-, -, ht⟩ | ⟨-, -, ht⟩ <;> rw [ht]
  · have not_forced : ¬p.forceTss < b.tss := fun hlt => by
      rw [(boundaryOf_track_iff p smp b).2 (.inl hlt)] at hb; cases hb
    exact passSecond_inv tracked (Nat.le_of_not_lt not_forced)
  · exact closeSecond_inv hp tracked
  · exact latchFrame_inv (closeSecond_inv hp tracked) _

/-! ### Every step -/

theorem BlockStep.inv {p : Params} {b c : Block} (hp : p.Legal) (h : b.Inv p) (hs : BlockStep p b c) : c.Inv p := by
  cases hs with
  | stays => exact h
  | resets => exact reset_inv hp
  | faults cause hc _ => exact faulted_inv h hc
  | ticks smp _ => exact tick_inv hp h smp

/-- Settles O14: a step keeps the parameters and does one of the four things `BlockStep` names to the block, each of
which keeps the invariant. -/
theorem everyStepKeepsInv : Obligations.EveryStepKeepsInv := by
  intro s t hs ht
  obtain ⟨hcfg, hstep⟩ := step_blockStep ht
  exact ⟨hcfg ▸ hs.legal, hcfg ▸ hstep.inv hs.legal hs.block⟩

/-- Settles O13, by `reset_inv`; the default parameters are legal (R1). -/
theorem invHoldsAtReset : Obligations.InvHoldsAtReset :=
  have reset_of_legal : ∀ p : Params, p.Legal → (State.resetOf p).Inv := fun _ h => ⟨h, reset_inv h⟩
  ⟨reset_of_legal _ (by decide), reset_of_legal⟩

end Sys2Proof.Machine
end

section
/-! The reset state: what it holds, how the reset input gives it and what reads answer in it (R48, R270, R271). -/

namespace Sys2Proof.Machine

/-- Settles O10: every piece of state is zero by `reset_allZero`, and the sums and counts of zeros are zero. -/
theorem resetStateIsZero : Obligations.ResetStateIsZero :=
  ⟨reset_allZero _, Ring.symbolAt_zeros _, reset_countsAgree _, Nat.zero_le _,
    (reset_inv (p := Params.default) (by decide)).healthAgree, by decide⟩

/-- A clock that asserts reset is spent on the reset, with the words presented in it (R270). -/
theorem step_reset_clock {s : State} {p q : Option Cmd} {rest : List Clock} (h : s.inputs = ⟨true, p, q⟩ :: rest) :
    step s = .next { s with inputs := rest }.resetBlock := by
  obtain ⟨cfg, block, inputs, out, freeCtr⟩ := s
  cases h
  rfl

/-- Settles O11: the step is the one `step_reset_clock` names. -/
theorem resetInputGivesTheZeroState : Obligations.ResetInputGivesTheZeroState := by
  intro s p q rest h
  exact ⟨_, step_reset_clock h, reset_allZero _, rfl, rfl, rfl⟩

/-! ### The reads of the reset state -/

/-- A legal index of a zero ring reads 0 (R48, R101). -/
theorem Ring.bat_zeros {cap i : Nat} (h : i < cap) : (Ring.zeros cap).bat i = some false := by
  have hs := Ring.sample_zeros cap i
  have hb : (Ring.zeros cap).bat i = some ((Ring.zeros cap).readBit ((Ring.zeros cap).head + i)) := by
    rw [Ring.bat, Ring.zeros_cap, if_pos h]
  rw [Ring.sample, hb, Option.getD_some] at hs
  rw [hb, hs]

theorem Ring.sat_zeros {n i : Nat} (h : i < n) : (Ring.zeros (2 * n)).sat i = some 0 := by
  rw [Ring.sat, Ring.zeros_cap, if_pos (by omega), Ring.sample_zeros, Ring.sample_zeros]
  rfl

/-- With no health the block is healthy only at a threshold of 0 (R198). -/
theorem healthOk_zero_iff {p : Params} (h : p.Legal) : healthOk p 0 = true ↔ p.healthPctThr = 0 := by
  have hsub := legal_subsec_pos h
  have hsym := legal_symbols_pos h
  simp only [healthOk, decide_eq_true_eq, Nat.mul_zero, Nat.le_zero, Nat.mul_eq_zero]
  omega

theorem reset_statusWord {p : Params} (h : p.Legal) (ht : p.healthPctThr ≠ 0) : statusWord p (Block.reset p) = 0 := by
  have not_ok : healthOk p (Block.reset p).health = false :=
    Bool.eq_false_iff.2 fun ok => ht ((healthOk_zero_iff h).1 ok)
  rw [statusWord, not_ok]
  change (0#3 ++ 0#2 ++ 0#1 ++ 0#1 ++ 0#1 : BitVec 8).setWidth 32 = 0
  decide

/-- The window of the reset state has no Mark at position 0 (R163, R271). -/
theorem reset_fdecode (p : Params) : fdecode p (Block.reset p).sring = .rejected .marks := by
  have no_marks : marksRight (frameWindow p (Ring.zeros (2 * p.symbols))) = false := by
    rw [Bool.eq_false_iff]
    intro hm
    have first := ((marksRight_iff _).1 hm 0 (by decide)).2 (.inl rfl)
    simp [symAt, frameWindow] at first
  change decodeWindow _ (frameWindow p (Ring.zeros (2 * p.symbols))) = _
  rw [decodeWindow, no_marks]
  rfl

/-- An indexed read of a 0 answers 0 (R84). -/
theorem answerIndexed_zero {s : State} {v : Option Word} (h : v = some 0) :
    (.next (s.answerIndexed v) : Result) = .next { s with out := .onQ 0 false } := by
  rw [h]
  rfl

/-- An element at a legal index of an array of zeros, in either extension (R191 to R193). -/
theorem indexed_zero {α : Type} {n : Nat} {i : BitVec 12} {zero : α} {extend : α → Word} (h : i.toNat < n)
    (hz : extend zero = 0) : indexed n i (fun k => extend ((List.replicate n zero).getD k zero)) = some 0 := by
  rw [indexed, if_pos h, List.getD_replicate zero h, hz]

/-- Settles O12: each output is computed from the zeros of the reset state. -/
theorem resetOutputs : Obligations.ResetOutputs := by
  intro p i h
  have run : (State.resetOf p).Running := rfl
  refine ⟨?_, healthOk_zero_iff h, rfl, ?_, ?_, ?_, ?_, ?_, ?_, ?_⟩
  · exact Nat.zero_div _
  · intro ht
    rw [exec_rdreg run]
    change Host.Outcome.next ((State.resetOf p).answer (statusWord p (Block.reset p))) = _
    rw [reset_statusWord h ht]
    rfl
  · exact fun hi => (exec_rdbit run i).trans (answerIndexed_zero (congrArg _ (Ring.bat_zeros hi)))
  · exact fun hi => (exec_rdsym run i).trans (answerIndexed_zero (congrArg _ (Ring.sat_zeros hi)))
  · exact fun hi => (exec_rdcnt run i).trans (answerIndexed_zero (indexed_zero hi rfl))
  · exact fun hi => (exec_rdedge run i).trans (answerIndexed_zero (indexed_zero hi rfl))
  · exact fun hi => (exec_rdhh run i).trans (answerIndexed_zero (indexed_zero hi rfl))
  · rw [exec_fdec run]
    change Host.Outcome.next ((State.resetOf p).answer ((fdecode p (Block.reset p).sring).select .err)) = _
    rw [reset_fdecode]
    rfl

end Sys2Proof.Machine
end

section
/-! What the invariant and one TICK give: the ranges of the totals (R27, R36, R197), the sample a TICK takes (R122,
R123), the second a boundary closes (R128, R147). -/

namespace Sys2Proof.Machine

/-- The rolling total is at most one full score per slot (R36). -/
theorem Block.Inv.health_le {p : Params} {b : Block} (h : b.Inv p) : b.health ≤ p.symbols * p.subsec := by
  have each : ∀ x ∈ b.healthHistory, x ≤ p.subsec := fun x hx => by
    obtain ⟨k, hk, rfl⟩ := List.mem_iff_getElem.1 hx
    have := h.scoresRange k (h.scores_length ▸ hk)
    rwa [List.getD_eq_getElem _ _ hk] at this
  rw [h.healthAgree, ← h.scores_length]
  exact List.sum_le_card_nsmul _ _ each

/-- Settles O15: the counts by the occupancy of the window, health by the sum of the scores. -/
theorem countsAndHealthStayInRange : Obligations.CountsAndHealthStayInRange := by
  intro s ⟨_, hb⟩
  refine ⟨fun _ => hb.counts_le, hb.health_le, Nat.div_le_of_le_mul ?_⟩
  rw [Nat.mul_comm (s.cfg.symbols * s.cfg.subsec)]
  exact Nat.mul_le_mul_left 100 hb.health_le

/-- Settles O19: steps 1, 2, 3 and 5 leave what `sample_bput`, `nextCounts_entry` and `nextEdges_entry` say. -/
theorem tickTakesTheSample : Obligations.TickTakesTheSample := by
  intro s smp ⟨_, hb⟩ hr
  refine ⟨_, exec_tick hr smp, ?_⟩
  rw [takeSample_block, tick_raw, tick_counts, tick_edges, tick_subsec, tick_seq, ← hb.raw_cap]
  have head_lt := hb.raw_head_lt
  have entry := nextCounts_entry hb smp
  refine ⟨?_, fun j hj => ?_, rfl, by omega, nextCounts_le hb smp hb.subsecRange, fun k => nextCounts_other smp _,
    nextEdges_entry hb smp, fun k => nextEdges_other _ smp _, rfl, rfl⟩
  · rw [Ring.sample_bput head_lt smp (by omega), if_pos (by omega)]
  · rw [Ring.sample_bput head_lt smp (by omega), if_neg (by omega)]

/-- The fields of a boundary that a decode attempt leaves alone, on the block `closeSecond` gave (R175, R176). -/
theorem tick_of_boundary {p : Params} {smp : Bool} {b : Block} (h : (tick p smp b).1.newSecond = true) :
    (tick p smp b).1.lastSym = (closeSecond p (track p smp b)).lastSym ∧
    (tick p smp b).1.sring = (closeSecond p (track p smp b)).sring ∧
    (tick p smp b).1.health = (closeSecond p (track p smp b)).health ∧
    (tick p smp b).1.healthHistory = (closeSecond p (track p smp b)).healthHistory := by
  rcases tick_cases p smp b with ⟨-, ht⟩ | ⟨-, -, ht⟩ | ⟨-, -, ht⟩ <;> rw [ht] at h ⊢
  · cases h
  · exact ⟨rfl, rfl, rfl, rfl⟩
  · exact ⟨latchFrame_lastSym .., latchFrame_sring .., latchFrame_health .., latchFrame_healthHistory ..⟩

/-- The slot of a symbol ring moves on by one with each push (R35, R110). -/
theorem Ring.sput_slot {r : Ring} {n : Nat} (hcap : r.cap = 2 * n) (v : Symbol) :
    (r.sput v).2.slot = (r.slot + 1) % n := by
  rw [Ring.slot, Ring.sput_head, hcap, Nat.mod_mul_right_div_self, Nat.add_div_right _ (by decide)]
  rfl

/-- Settles O23: a boundary leaves the ring and the health state as `closeSecond` does. -/
theorem tickClosesTheSecond : Obligations.TickClosesTheSecond := by
  intro s smp ⟨hp, hb⟩ hr
  refine ⟨_, exec_tick hr smp, fun hn => ?_⟩
  rw [takeSample_block] at hn ⊢
  obtain ⟨hsym, hring, hhealth, hscores⟩ := tick_of_boundary hn
  rw [hsym, hring, hhealth, hscores, tick_raw, ← track_raw s.cfg]
  have tracked := track_inv hb smp
  have symbols_pos := legal_symbols_pos hp
  have added := closeSecond_health_add tracked
  refine ⟨rfl, ?_, fun j hj => ?_, Ring.sput_slot tracked.sring_cap _, ?_, ?_, fun k hk => ?_⟩
  · rw [closeSecond_sring, tracked.symbolAt_sput _ (by omega), if_pos (by omega)]
  · rw [closeSecond_sring, tracked.symbolAt_sput _ (by omega), if_neg (by omega), track_sring]
  · rw [track_healthHistory, track_health, track_sring, Ring.slot] at added
    omega
  · rw [closeSecond_healthHistory, getD_set, if_pos ⟨rfl, tracked.scores_length ▸ tracked.slot_lt⟩]
  · rw [closeSecond_healthHistory, getD_set, if_neg fun e => hk e.1.symm, track_healthHistory]

end Sys2Proof.Machine
end

section
/-! The ring-buffer law (R66, R103). -/

namespace Sys2Proof.Machine

/-- The window of a ring by logical index, oldest first (R52). -/
def Ring.window (r : Ring) : List Bool := (List.range r.cap).map r.sample

theorem Ring.window_zeros (cap : Nat) : (Ring.zeros cap).window = List.replicate cap false := by
  simp [Ring.window, List.eq_replicate_iff]

/-- A put drops the oldest value of the window and appends the new one (R66). -/
theorem Ring.window_bput {r : Ring} (h : r.head < r.cap) (b : Bool) :
    (r.bput b).2.window = r.window.drop 1 ++ [b] := by
  obtain ⟨m, hm⟩ : ∃ m, r.cap = m + 1 := ⟨r.cap - 1, by omega⟩
  have newest : (r.bput b).2.sample m = b := by
    rw [Ring.sample_bput h b (by omega), if_pos hm.symm]
  have older : (List.range m).map (r.bput b).2.sample = ((List.range m).map Nat.succ).map r.sample := by
    rw [List.map_map]
    refine List.map_congr_left fun i hi => ?_
    have := List.mem_range.1 hi
    rw [Ring.sample_bput h b (by omega), if_neg (by omega)]
    rfl
  rw [Ring.window, Ring.window, Ring.bput_cap, hm, List.range_succ, List.map_append, older, List.map_singleton, newest,
    ← List.range_succ, List.range_succ_eq_map]
  rfl

/-- The value a put returns heads the window (R66, R103). -/
theorem Ring.window_eq_evicted_cons {r : Ring} (h : r.head < r.cap) (b : Bool) :
    r.window = (r.bput b).1 :: r.window.drop 1 := by
  obtain ⟨m, hm⟩ : ∃ m, r.cap = m + 1 := ⟨r.cap - 1, by omega⟩
  rw [Ring.bput_evicted_eq_sample h, Ring.window, hm, List.range_succ_eq_map]
  rfl

/-- From any ring, the window after a run of puts is the end of the old window followed by the values put, and the
values returned are what came before it (R66, R103). -/
theorem Ring.putAll_window {r : Ring} (h : r.head < r.cap) (bs : List Bool) :
    (r.putAll bs).window = (r.window ++ bs).drop bs.length ∧ r.evictedBy bs = (r.window ++ bs).take bs.length := by
  induction bs generalizing r with
  | nil => simp [Ring.putAll, Ring.evictedBy]
  | cons b bs ih =>
    obtain ⟨hwindow, hevicted⟩ := ih (r := (r.bput b).2) (by simpa using Ring.bput_head_lt h b)
    rw [Ring.window_bput h, List.append_assoc, List.singleton_append] at hwindow hevicted
    rw [Ring.window_eq_evicted_cons h b]
    exact ⟨hwindow, congrArg _ hevicted⟩

theorem Ring.putAll_cap (r : Ring) (bs : List Bool) : (r.putAll bs).cap = r.cap := by
  induction bs generalizing r with
  | nil => rfl
  | cons b bs ih => exact (ih _).trans (Ring.bput_cap r b)

/-- Settles O16: `putAll_window` on the zero-filled ring. -/
theorem bitRingHoldsTheMostRecent : Obligations.BitRingHoldsTheMostRecent := by
  intro cap bs hcap
  have law := Ring.putAll_window (r := Ring.zeros cap) (by simpa using hcap) bs
  rwa [Ring.window, Ring.putAll_cap, Ring.zeros_cap, Ring.window_zeros] at law

end Sys2Proof.Machine
end

section
/-! The snapshot protocol: `seq` counts the samples a run without reset took (R38, R60). -/

namespace Sys2Proof.Machine

/-- A block that runs after a step without reset ran before it (R243). -/
theorem QuietStep.running {p : Params} {b c : Block} (h : QuietStep p b c) (hc : c.fault = false) : b.fault = false := by
  cases h with
  | stays => exact hc
  | faults cause _ hr => exact hr
  | ticks smp hr => exact hr

/-- A run without reset that ends in a running block began in one and took some number of samples; if it took none, the
block was the same throughout (R38, R60). -/
theorem run_counts_samples {n : Nat} {s t : State} (hn : s.NoReset) (h : Host.Core.run core n s = .next t)
    (ht : t.Running) :
    s.Running ∧ ∃ k ≤ n, t.block.seq = s.block.seq + BitVec.ofNat 32 k ∧
      (k = 0 → ∀ m ≤ n, ∃ u, Host.Core.run core m s = .next u ∧ u.block = s.block) := by
  induction n generalizing s with
  | zero =>
    cases h
    exact ⟨ht, 0, le_rfl, by simp, fun _ m hm => ⟨t, by rw [Nat.le_zero.1 hm]; rfl, rfl⟩⟩
  | succ n ih =>
    obtain ⟨s', hs⟩ := step_total s
    obtain ⟨-, hn', quiet⟩ := step_quiet hn hs
    rw [run_succ hs] at h
    obtain ⟨hr', k, hk, hseq, hsame⟩ := ih hn' h
    refine ⟨quiet.running hr', ?_⟩
    generalize hb : s'.block = b' at quiet
    cases quiet with
    | stays =>
      refine ⟨k, by omega, hb ▸ hseq, fun hk0 m hm => ?_⟩
      cases m with
      | zero => exact ⟨s, rfl, rfl⟩
      | succ m => rw [run_succ hs, ← hb]; exact hsame hk0 m (by omega)
    | faults cause _ _ => rw [State.Running, hb] at hr'; cases hr'
    | ticks smp _ =>
      refine ⟨k + 1, by omega, ?_, nofun⟩
      rw [hseq, hb, tick_seq, BitVec.add_assoc, Nat.add_comm k 1, BitVec.ofNat_add]
      rfl

/-- Settles O45: fewer than 2^32 samples leave `seq` as it was only if there was none. -/
theorem equalSeqIsOneSnapshot : Obligations.EqualSeqIsOneSnapshot := by
  intro s t n hn hlt h ht hseq
  obtain ⟨-, k, hk, hcount, hsame⟩ := run_counts_samples hn h ht
  have no_sample : BitVec.ofNat 32 k = 0 := by
    rw [hseq] at hcount
    exact BitVec.add_right_eq_self.1 hcount.symm
  refine hsame ?_
  have := congrArg BitVec.toNat no_sample
  rw [BitVec.toNat_ofNat, Nat.mod_eq_of_lt (by omega)] at this
  exact this

end Sys2Proof.Machine
end

section
/-! The order of commands: what is presented when one port, or both, present a word, and what the steps then do
(R57, R58, R87, R242 to R244). -/

namespace Sys2Proof.Machine

/-! ### What is presented -/

/-- A word presented alone is dealt with and its clock is over. -/
theorem present_single {s : State} {port : Port} {w : Cmd} {rest : List Clock}
    (h : s.inputs = Clock.single port w :: rest) : s.present = .word port w { s with inputs := rest } := by
  obtain ⟨cfg, block, inputs, out, freeCtr⟩ := s
  cases h
  cases port <;> rfl

/-- Of two words in one clock the port P word is dealt with first, and the port Q word waits in a clock of its own
(R58). -/
theorem present_both {s : State} {w v : Cmd} {rest : List Clock} (h : s.inputs = ⟨false, some w, some v⟩ :: rest) :
    s.present = .word .P w { s with inputs := Clock.single .Q v :: rest } := by
  obtain ⟨cfg, block, inputs, out, freeCtr⟩ := s
  cases h
  rfl

/-! ### What a step does with a word -/

theorem step_word_command {s s' : State} {port : Port} {w : Cmd} {i : Instr} (h : s.present = .word port w s')
    (hd : decode port w = .command i) : step s = exec i s' := by
  simp only [step, h, hd]

/-- Settles O7: in each of the three clocks the word is presented as `present_single` or `present_both` says. -/
theorem stepRunsTheDecodedCommand : Obligations.StepRunsTheDecodedCommand := by
  intro s w v rest i
  exact ⟨fun h => step_word_command (present_single (port := .P) h),
    fun h => step_word_command (present_single (port := .Q) h), fun h => step_word_command (present_both h)⟩

/-- After a word that is no command the block is halted, whether it was before or not, and the fault indication is
shown on the port of the word (R242, R243). -/
theorem step_word_illegal_halts {s s' : State} {port : Port} {w : Cmd} {e : DecodeError}
    (h : s.present = .word port w s') (hd : decode port w = .illegal e) :
    ∃ t, step s = .next t ∧ t.Halted ∧ Response.ShowsFault port t.out ∧ t.cfg = s'.cfg ∧ t.inputs = s'.inputs := by
  cases hf : s'.block.fault with
  | true => exact ⟨_, step_word_halted h hf, hf, indicateFault_shows s' port, rfl, rfl⟩
  | false => exact ⟨_, step_word_illegal h hd hf, rfl, (takeFault_entry s' port .illegal).shown, rfl, rfl⟩

/-- A port P command leaves a running block running (R133, R241). -/
theorem exec_producer_running {s t : State} {i : Instr} (ht : exec i s = .next t) (hp : i.port = .P) (h : s.Running) :
    t.Running := by
  have sampled : ∀ smp, (s.takeSample smp).Running := fun smp => (tick_fault s.cfg smp s.block).trans h
  cases i with
  | nop port => cases hp; rw [exec_nop h] at ht; cases ht; exact h
  | tick smp => rw [exec_tick h] at ht; cases ht; exact sampled smp
  | tickc c =>
    rw [exec_tickc h] at ht
    split at ht <;> cases ht
    · exact sampled _
    · exact h
  | rdbit | rdsym | rdcnt | rdedge | rdhh | rdreg | fdec => cases hp

/-! ### Two words in one clock -/

theorem run_two {s t : State} (h : step s = .next t) : Host.Core.run core 2 s = step t := by
  obtain ⟨u, hu⟩ := step_total t
  rw [run_succ h, run_succ hu, hu]
  rfl

/-- Settles O8: the first step leaves the port Q word presented alone, and the second deals with it on the state the
first left. -/
theorem producerCommandComesFirst : Obligations.ProducerCommandComesFirst := by
  intro s w v rest h
  have first := present_both h
  refine ⟨fun i j hi hj => ?_, fun i e hr hi he => ?_, fun e he => ?_⟩
  · obtain ⟨t, ht, -, hq, -⟩ := exec_blockStep i { s with inputs := Clock.single .Q v :: rest }
    exact ⟨t, ht,
      (run_two ((step_word_command first hi).trans ht)).trans (step_word_command (present_single hq) hj)⟩
  · obtain ⟨t, ht, -, hq, -⟩ := exec_blockStep i { s with inputs := Clock.single .Q v :: rest }
    have hrun : t.Running := exec_producer_running ht (decode_port hi) hr
    exact ⟨t, _, ht, (run_two ((step_word_command first hi).trans ht)).trans
      (step_word_illegal (present_single hq) he hrun), takeFault_entry _ _ _⟩
  · obtain ⟨t, ht, halted, shown, hcfg, hq⟩ := step_word_illegal_halts first he
    exact ⟨t, _, ht, halted, shown, (run_two ht).trans (step_word_halted (present_single hq) halted), rfl, hcfg, rfl,
      indicateFault_shows _ .Q⟩

/-! ### Words that are no commands, and words to a halted block -/

/-- Settles O40: the word raises IllegalCommand by `step_word_illegal`, and a port Q word that waits behind it finds
the block halted. -/
theorem illegalWordFaults : Obligations.IllegalWordFaults := by
  intro s w e rest hr
  refine ⟨fun h hd => ?_, fun h hd => ?_, fun v h hd => ?_⟩
  · exact ⟨_, step_word_illegal (present_single (port := .P) h) hd hr, takeFault_entry _ _ _⟩
  · exact ⟨_, step_word_illegal (present_single (port := .Q) h) hd hr, takeFault_entry _ _ _⟩
  · exact ⟨_, _, step_word_illegal (present_both h) hd hr, takeFault_entry _ _ _,
      step_word_halted (present_single (port := .Q) rfl) rfl, rfl, rfl, rfl, rfl, indicateFault_shows _ .Q⟩

/-- Settles O42, by `exec_halted` for a command and `step_word_halted` for a word. -/
theorem haltedBlockOnlyAnswers : Obligations.HaltedBlockOnlyAnswers := by
  intro s hh
  refine ⟨fun i => ⟨_, exec_halted hh i, rfl, rfl, rfl, indicateFault_shows s i.port⟩, fun w rest => ⟨?_, ?_, ?_⟩⟩
  · exact fun h => ⟨_, step_word_halted (present_single (port := .P) h) hh, rfl, rfl, indicateFault_shows _ .P⟩
  · exact fun h => ⟨_, step_word_halted (present_single (port := .Q) h) hh, rfl, rfl, indicateFault_shows _ .Q⟩
  · exact fun v h => ⟨_, _, step_word_halted (present_both h) hh, rfl, rfl, indicateFault_shows _ .P,
      step_word_halted (present_single (port := .Q) rfl) hh, rfl, rfl, indicateFault_shows _ .Q⟩

/-- Settles O44: of what a step without reset can do, fault entry ends in a halted block and only TICK counts
(R38, R60). -/
theorem everyChangeCountsASample : Obligations.EveryChangeCountsASample := by
  intro s t hn h ht
  obtain ⟨-, -, quiet⟩ := step_quiet hn h
  rw [State.Running] at ht
  generalize t.block = b at quiet ht
  cases quiet with
  | stays => exact .inl rfl
  | faults cause _ _ => cases ht
  | ticks smp _ => exact .inr (tick_seq ..)

end Sys2Proof.Machine
end

section
/-! Indexed reads: the element at an index in range, BoundsFault at one out of range (R52 to R54, R101, R111, R241). -/

namespace Sys2Proof.Machine

/-! ### The two outcomes of an index -/

theorem Ring.bat_of_lt {r : Ring} {i : Nat} (h : i < r.cap) : r.bat i = some (r.sample i) := by
  simp [Ring.sample, Ring.bat, h]

theorem Ring.bat_of_le {r : Ring} {i : Nat} (h : r.cap ≤ i) : r.bat i = none := if_neg h.not_gt

theorem Ring.sat_of_lt {r : Ring} {i : Nat} (h : i < r.cap / 2) : r.sat i = some (r.symbolAt i) := by
  simp [Ring.symbolAt, Ring.sat, h]

theorem Ring.sat_of_le {r : Ring} {i : Nat} (h : r.cap / 2 ≤ i) : r.sat i = none := if_neg h.not_gt

theorem indexed_of_le {cap : Nat} {i : BitVec 12} (h : cap ≤ i.toNat) (value : Nat → Word) :
    indexed cap i value = none := if_neg h.not_gt

/-- An index with no element raises BoundsFault (R53, R241). -/
theorem answerIndexed_none_entry {s : State} {v : Option Word} (h : v = none) :
    FaultEntry .Q .bounds s (s.answerIndexed v) := by
  rw [h]
  exact takeFault_entry s .Q .bounds

/-! ### The reads -/

/-- Settles O30: the bit is the one `sample_eq` names. -/
theorem rdbitReadsTheWindow : Obligations.RdbitReadsTheWindow := by
  intro s i hr ⟨raw_cap, _⟩ hi
  have hcap : s.block.raw.cap = s.cfg.buffer := raw_cap
  rw [← hcap] at hi
  rw [exec_rdbit hr, Ring.bat_of_lt hi, Ring.sample_eq hi, hcap]
  cases s.block.raw.bits.getD ((s.block.raw.head + i.toNat) % s.cfg.buffer) false <;> rfl

/-- The value of a symbol is that of its two bits, the first the more significant (R54, R84). -/
theorem symbol_value (x y : Bool) :
    (BitVec.ofBool x ++ BitVec.ofBool y).setWidth 32 = BitVec.ofNat 32 (2 * x.toNat + y.toNat) := by
  revert x y; decide

/-- Settles O31: the symbol is the two bits `sample_eq` names, with the value of `symbol_value`. -/
theorem rdsymReadsTheSymbolRing : Obligations.RdsymReadsTheSymbolRing := by
  intro s i hr ⟨_, _, sring_cap, _⟩ hi
  have hcap : s.block.sring.cap = 2 * s.cfg.symbols := sring_cap
  have hi' : i.toNat < s.block.sring.cap / 2 := by omega
  rw [exec_rdsym hr, Ring.sat_of_lt hi', Ring.symbolAt_eq hi', Ring.sample_eq (by omega), Ring.sample_eq (by omega),
    hcap, Option.map_some, symbol_value]
  rfl

/-- Settles O39: each of the five reads has no element at an index at or above its capacity. -/
theorem indexOutOfRangeFaults : Obligations.IndexOutOfRangeFaults := by
  intro s i hr ⟨raw_cap, _, sring_cap, _⟩
  have hraw : s.block.raw.cap = s.cfg.buffer := raw_cap
  have hsring : s.block.sring.cap = 2 * s.cfg.symbols := sring_cap
  refine ⟨fun h => ⟨_, exec_rdbit hr i, answerIndexed_none_entry ?_⟩,
    fun h => ⟨_, exec_rdsym hr i, answerIndexed_none_entry ?_⟩,
    fun h => ⟨_, exec_rdcnt hr i, answerIndexed_none_entry (indexed_of_le h _)⟩,
    fun h => ⟨_, exec_rdedge hr i, answerIndexed_none_entry (indexed_of_le h _)⟩,
    fun h => ⟨_, exec_rdhh hr i, answerIndexed_none_entry (indexed_of_le h _)⟩⟩
  · rw [Ring.bat_of_le (by omega), Option.map_none]
  · rw [Ring.sat_of_le (by omega), Option.map_none]

end Sys2Proof.Machine
end

section
/-! The symbol ring loses nothing (R113): each push lets out the oldest symbol and lets in the one pushed. -/

namespace Sys2Proof.Machine

/-- The symbols of a ring by logical index, oldest first (R111). -/
def Ring.symbols (r : Ring) : List Symbol := (List.range (r.cap / 2)).map r.symbolAt

@[simp] theorem Ring.symbols_length (r : Ring) : r.symbols.length = r.cap / 2 := by simp [Ring.symbols]

theorem Ring.symbols_zeros (n : Nat) : (Ring.zeros (2 * n)).symbols = List.replicate n 0 := by
  simp [Ring.symbols, List.eq_replicate_iff]

/-- The symbol a push returns is the oldest one (R110, R113). -/
theorem Ring.sput_evicted_eq_symbolAt {r : Ring} (h : r.head < r.cap) (hc : 1 < r.cap) (v : Symbol) :
    (r.sput v).1 = r.symbolAt 0 := by
  have first := Ring.bput_evicted_eq_sample h (v.getLsbD 1)
  have second := Ring.bput_evicted_eq_sample (r := (r.bput (v.getLsbD 1)).2)
    (by simpa using Ring.bput_head_lt h (v.getLsbD 1)) (v.getLsbD 0)
  rw [Ring.sample_bput h _ (by omega), if_neg (by omega)] at second
  rw [Ring.symbolAt_eq (by omega), Ring.sput, first, second]

/-- A push moves the symbols on by one: what stood in the ring and then the symbol pushed are the symbol returned and
then what stands there now (R110, R113). -/
theorem Ring.symbols_append_pushed {r : Ring} {n : Nat} (hcap : r.cap = 2 * (n + 1)) (h : r.head < r.cap) (v : Symbol) :
    r.symbols ++ [v] = (r.sput v).1 :: (r.sput v).2.symbols := by
  have moved : ∀ i ≤ n, (r.sput v).2.symbolAt i = if i = n then v else r.symbolAt (i + 1) := fun i hi => by
    rw [Ring.symbolAt_sput h (by omega) v (by omega)]
    exact if_congr (by omega) rfl rfl
  have kept : (List.range n).map (r.sput v).2.symbolAt = (List.range n).map (r.symbolAt ∘ Nat.succ) :=
    List.map_congr_left fun i hi => by
      have := List.mem_range.1 hi
      rw [moved i this.le, if_neg this.ne]
      rfl
  have half : r.cap / 2 = n + 1 := by omega
  have before : r.symbols = r.symbolAt 0 :: (List.range n).map (r.symbolAt ∘ Nat.succ) := by
    rw [Ring.symbols, half, List.range_succ_eq_map, List.map_cons, List.map_map]
  have after : (r.sput v).2.symbols = (List.range n).map (r.symbolAt ∘ Nat.succ) ++ [v] := by
    rw [Ring.symbols, Ring.sput_cap, half, List.range_succ, List.map_append, kept, List.map_singleton,
      moved n le_rfl, if_pos rfl]
  rw [before, after, Ring.sput_evicted_eq_symbolAt h (by omega), List.cons_append]

/-- A run of pushes: what stood in the ring and then the symbols pushed are the symbols returned and then what stands
there now (R113). -/
theorem Ring.symbols_append_pushAll {r : Ring} {n : Nat} (hcap : r.cap = 2 * (n + 1)) (h : r.head < r.cap)
    (vs : List Symbol) : r.symbols ++ vs = r.pushedOut vs ++ (r.pushAll vs).symbols := by
  induction vs generalizing r with
  | nil => simp [Ring.pushAll, Ring.pushedOut]
  | cons v vs ih =>
    calc r.symbols ++ v :: vs
        = (r.symbols ++ [v]) ++ vs := by simp
      _ = (r.sput v).1 :: ((r.sput v).2.symbols ++ vs) := by rw [Ring.symbols_append_pushed hcap h]; rfl
      _ = r.pushedOut (v :: vs) ++ (r.pushAll (v :: vs)).symbols := by
          rw [ih (by simpa using hcap) (by simpa using Ring.sput_head_lt h v)]; rfl

theorem Ring.pushAll_cap (r : Ring) (vs : List Symbol) : (r.pushAll vs).cap = r.cap := by
  induction vs generalizing r with
  | nil => rfl
  | cons v vs ih => exact (ih _).trans (Ring.sput_cap r v)

theorem Ring.pushedOut_length (r : Ring) (vs : List Symbol) : (r.pushedOut vs).length = vs.length := by
  induction vs generalizing r with
  | nil => rfl
  | cons v vs ih => exact congrArg (· + 1) (ih _)

/-- Settles O17: the two parts of `symbols_append_pushAll` on the zero-filled ring, cut at the number of pushes. -/
theorem symbolRingHoldsTheMostRecent : Obligations.SymbolRingHoldsTheMostRecent := by
  intro n vs hn
  obtain ⟨m, rfl⟩ : ∃ m, n = m + 1 := ⟨n - 1, by omega⟩
  have law := Ring.symbols_append_pushAll (Ring.zeros_cap (2 * (m + 1))) (by simp) vs
  rw [Ring.symbols_zeros] at law
  have cut := Ring.pushedOut_length (Ring.zeros (2 * (m + 1))) vs
  rw [law, List.drop_left' cut, List.take_left' cut, Ring.symbols, Ring.pushAll_cap, Ring.zeros_cap,
    Nat.mul_div_cancel_left _ (by decide)]
  exact ⟨rfl, rfl⟩

end Sys2Proof.Machine
end

section
/-! Encoding (R80 to R87, R93, R94): a word decodes on a port to a command exactly when it is that command's word. -/

namespace Sys2Proof

/-! ### Fields of a word -/

/-- A value whose high field is zero is its low field, padded (R81). -/
theorem zero_append_low {n m : Nat} {w : BitVec (n + m)} (h : w.extractLsb' m n = 0) :
    0#n ++ w.extractLsb' 0 m = w := by
  conv_rhs => rw [← append_extract w, h]
  rfl

/-- A field is zero exactly when what the word holds up to the field's end lies below it. -/
theorem extract_eq_zero_iff {v : Nat} (w : BitVec v) (k n : Nat) :
    w.extractLsb' k n = 0 ↔ w.toNat % 2 ^ (k + n) < 2 ^ k := by
  rw [BitVec.toNat_eq, BitVec.extractLsb'_toNat, Nat.shiftRight_eq_div_pow, Nat.pow_add, ← Nat.mod_mul_right_div_self]
  exact Nat.div_eq_zero_iff_lt (Nat.two_pow_pos k)

/-! ### The arguments of the formats -/

@[simp] theorem arg_tickc_high (c : BitVec 8) : (Instr.tickc c).arg.extractLsb' 8 4 = 0 := extract_append_high 0#4 c

@[simp] theorem arg_tickc_low (c : BitVec 8) : (Instr.tickc c).arg.extractLsb' 0 8 = c := extract_append_low 0#4 c

@[simp] theorem arg_rdreg_high (r : BitVec 8) : (Instr.rdreg r).arg.extractLsb' 8 4 = 0 := extract_append_high 0#4 r

@[simp] theorem arg_rdreg_low (r : BitVec 8) : (Instr.rdreg r).arg.extractLsb' 0 8 = r := extract_append_low 0#4 r

@[simp] theorem arg_fdec_high (k : BitVec 4) : (Instr.fdec k).arg.extractLsb' 4 8 = 0 := extract_append_high 0#8 k

@[simp] theorem arg_fdec_low (k : BitVec 4) : (Instr.fdec k).arg.extractLsb' 0 4 = k := extract_append_low 0#8 k

/-- The argument of a command fits the operand's field (R81). -/
theorem arg_lt (i : Instr) : i.arg.toNat < 2 ^ Machine.operandBits i.opcode := by
  have padded {n m : Nat} (x : BitVec m) : (0#n ++ x).toNat < 2 ^ m := by simp [x.isLt]
  cases i with
  | nop port => exact Nat.zero_lt_one
  | tick s => exact padded (n := 11) _
  | tickc c => exact padded (n := 4) c
  | rdreg r => exact padded (n := 4) r
  | fdec k => exact padded (n := 8) k
  | rdbit k | rdsym k | rdcnt k | rdedge k | rdhh k => exact k.isLt

/-- A command is accepted on its own port (R83). -/
theorem accepted_port (i : Instr) : i.opcode.accepted i.port = true := by
  cases i with
  | nop port => rfl
  | _ => rfl

/-- A command is well formed when its register number or its selector is assigned (R94). -/
theorem wellFormed_iff (i : Instr) :
    i.wellFormed = true ↔
      (i.opcode = .rdreg → assignedRegister (i.arg.extractLsb' 0 8) = true) ∧
      (i.opcode = .fdec → (i.arg.extractLsb' 0 4).toNat ≤ 9) := by
  cases i with
  | rdreg r => simp [Instr.wellFormed, Instr.opcode]
  | fdec k => simp [Instr.wellFormed, Instr.opcode, assignedSelector, BitVec.le_def]
  | _ => simp [Instr.wellFormed, Instr.opcode]

/-! ### The decoder's checks on an argument -/

/-- The argument of a well-formed command passes the checks of its format (R87). -/
theorem decodeArg_arg {i : Instr} (h : i.wellFormed = true) : decodeArg i.opcode i.port i.arg = .command i := by
  cases i with
  | nop port => rfl
  | tick s => cases s <;> rfl
  | tickc c => simp [decodeArg, Instr.opcode]
  | rdbit k | rdsym k | rdcnt k | rdedge k | rdhh k => rfl
  | rdreg r =>
    have assigned : (Reg.ofNumber r).isSome = true := (ofNumber_isSome r).trans h
    simp [decodeArg, Instr.opcode, assigned]
  | fdec k =>
    have assigned : (Selector.ofBits k).isSome = true := (ofSelector_isSome k).trans h
    simp [decodeArg, Instr.opcode, assigned]

/-- The checks of a format pass an argument only to a well-formed command of that opcode with all its bits (R81,
R87). -/
theorem decodeArg_command {op : Opcode} {port : Port} {arg : BitVec 12} {i : Instr}
    (h : decodeArg op port arg = .command i) : i.opcode = op ∧ i.arg = arg ∧ i.wellFormed = true := by
  cases op with
  | rdbit | rdsym | rdcnt | rdedge | rdhh => cases h; exact ⟨rfl, rfl, rfl⟩
  | nop =>
    simp only [decodeArg] at h
    split at h <;> cases h
    exact ⟨rfl, Eq.symm ‹_›, rfl⟩
  | tick =>
    simp only [decodeArg] at h
    split at h <;> cases h
    refine ⟨rfl, ?_, rfl⟩
    have low : BitVec.ofBool (arg.getLsbD 0) = arg.extractLsb' 0 1 := by
      ext k hk
      simp [Nat.lt_one_iff.1 hk]
    rw [Instr.arg, low]
    exact zero_append_low (n := 11) (m := 1) ‹_›
  | tickc =>
    simp only [decodeArg] at h
    split at h <;> cases h
    exact ⟨rfl, zero_append_low (n := 4) (m := 8) ‹_›, rfl⟩
  | rdreg =>
    simp only [decodeArg] at h
    split at h <;> [split at h; skip] <;> cases h
    rename_i hz hs
    exact ⟨rfl, zero_append_low (n := 4) (m := 8) hz, (ofNumber_isSome _).symm.trans hs⟩
  | fdec =>
    simp only [decodeArg] at h
    split at h <;> [split at h; skip] <;> cases h
    rename_i hz hs
    exact ⟨rfl, zero_append_low (n := 8) (m := 4) hz, (ofSelector_isSome _).symm.trans hs⟩

/-! ### Decoding is the inverse of encoding -/

/-- A word decodes on a port to a command exactly when it is the word of that command, well formed, on its own port
(R83, R85, R87). -/
theorem decode_eq_command_iff {port : Port} {w : Cmd} {i : Instr} :
    decode port w = .command i ↔ encode i = w ∧ i.port = port ∧ i.wellFormed = true := by
  constructor
  · intro h
    obtain ⟨op, hop, -, harg⟩ := decode_command h
    obtain ⟨hopcode, hargs, hwf⟩ := decodeArg_command harg
    refine ⟨?_, decode_port h, hwf⟩
    rw [encode, hopcode, hargs, bits_of_ofBits hop, fields_append]
  · rintro ⟨rfl, rfl, hwf⟩
    exact (decode_append (accepted_port i) _).trans (decodeArg_arg hwf)

/-- Settles O1, by `decode_eq_command_iff`. -/
theorem decodeOfEncodeIsTheCommand : Obligations.DecodeOfEncodeIsTheCommand :=
  fun _ hwf => decode_eq_command_iff.2 ⟨rfl, rfl, hwf⟩

/-- Settles O2, by `decode_eq_command_iff`. -/
theorem encodeOfDecodedIsTheWord : Obligations.EncodeOfDecodedIsTheWord :=
  fun _ _ _ => decode_eq_command_iff.1

/-- Settles O5: each word is the encoding of its command. -/
theorem specWordsDecode : Obligations.SpecWordsDecode := by
  have word (i : Instr) (hwf : i.wellFormed = true) := decodeOfEncodeIsTheCommand i hwf
  exact ⟨word (.tick true) rfl, word (.tick false) rfl, word (.tickc 0x5F) rfl, word (.rdbit 1999) rfl,
    word (.rdsym 60) rfl, word (.rdcnt 7) rfl, word (.rdedge 6) rfl, word (.rdhh 0) rfl, word (.rdreg 0x02) rfl,
    word (.fdec 0) rfl, word (.nop .Q) rfl, word (.nop .P) rfl⟩

/-! ### The table of masks and matches -/

/-- A row of the table in terms of its opcode and the size of its operand's field (R81, R85). -/
theorem row_eq (op : Opcode) :
    op.row = ⟨op.bits ++ 0#12, BitVec.allOnes 4 ++ (BitVec.allOnes 12 <<< Machine.operandBits op)⟩ := by
  cases op <;> rfl

/-- What a mask of high bits leaves of a value is zero exactly when the value lies below those bits. -/
theorem and_high_ones_eq_zero_iff {v : Nat} (x : BitVec v) (k : Nat) :
    x &&& (BitVec.allOnes v <<< k) = 0 ↔ x.toNat < 2 ^ k := by
  constructor
  · intro h
    refine Nat.lt_pow_two_of_testBit _ fun j hj => ?_
    have bit : (x &&& (BitVec.allOnes v <<< k)).getLsbD j = false := by rw [h]; exact BitVec.getLsbD_zero
    change x.getLsbD j = false
    by_cases hv : j < v
    · have inside : j - k < v := by omega
      simpa [hv, hj.not_gt, inside] using bit
    · exact BitVec.getLsbD_of_ge x j (by omega)
  · intro h
    ext j hj
    by_cases hk : j < k
    · simp [hk]
    · have bit : x.toNat.testBit j = false :=
        Nat.testBit_lt_two_pow (lt_of_lt_of_le h (Nat.pow_le_pow_right (by decide) (by omega)))
      simp [BitVec.getElem_eq_testBit_toNat, bit]

/-- A word meets the mask and match of a row when it has the row's opcode and an argument that fits the operand's field
(R81, R85). -/
theorem fits_iff (op : Opcode) (w : Cmd) :
    w &&& op.row.mask = op.row.pattern ↔
      opField w = op.bits ∧ (argField w).toNat < 2 ^ Machine.operandBits op := by
  rw [row_eq, ← and_high_ones_eq_zero_iff]
  have masked : w &&& (BitVec.allOnes 4 ++ (BitVec.allOnes 12 <<< Machine.operandBits op)) =
      opField w ++ (argField w &&& (BitVec.allOnes 12 <<< Machine.operandBits op)) := by
    conv_lhs => rw [← fields_append w]
    exact BitVec.and_append.trans (by rw [BitVec.and_allOnes])
  rw [masked]
  constructor
  · intro h
    exact ⟨by simpa using congrArg opField h, by simpa using congrArg argField h⟩
  · rintro ⟨hop, harg⟩
    rw [hop, harg]
    rfl

/-- An argument that fits the operand's field, with an assigned register or selector, passes the checks (R87, R94). -/
theorem decodeArg_isCommand {op : Opcode} {arg : BitVec 12} (port : Port)
    (hfit : arg.toNat < 2 ^ Machine.operandBits op)
    (hreg : op = .rdreg → assignedRegister (arg.extractLsb' 0 8) = true)
    (hsel : op = .fdec → (arg.extractLsb' 0 4).toNat ≤ 9) : ∃ i, decodeArg op port arg = .command i := by
  have zero (k n : Nat) (h : Machine.operandBits op = k) : arg.extractLsb' k n = 0 :=
    (extract_eq_zero_iff arg k n).2 (lt_of_le_of_lt (Nat.mod_le _ _) (h ▸ hfit))
  cases op with
  | nop => exact ⟨_, if_pos (BitVec.eq_of_toNat_eq (Nat.lt_one_iff.1 hfit))⟩
  | tick => exact ⟨_, if_pos (zero 1 11 rfl)⟩
  | tickc => exact ⟨_, if_pos (zero 8 4 rfl)⟩
  | rdbit | rdsym | rdcnt | rdedge | rdhh => exact ⟨_, rfl⟩
  | rdreg => exact ⟨_, (if_pos (zero 8 4 rfl)).trans (if_pos ((ofNumber_isSome _).trans (hreg rfl)))⟩
  | fdec =>
    have assigned : assignedSelector (arg.extractLsb' 0 4) = true := by
      simpa [assignedSelector, BitVec.le_def] using hsel rfl
    exact ⟨_, (if_pos (zero 4 8 rfl)).trans (if_pos ((ofSelector_isSome _).trans assigned))⟩

/-- A field inside the argument is that field of the word. -/
theorem argField_extract (w : Cmd) {k n : Nat} (h : k + n ≤ 12) :
    (argField w).extractLsb' k n = w.extractLsb' k n := by
  ext j hj
  simp [argField]
  omega

/-- Settles O3: the mask and match are conditions on the opcode and the argument by `fits_iff`, and the opcodes are
distinct. -/
theorem decodingFollowsTheTable : Obligations.DecodingFollowsTheTable := by
  refine ⟨fun port w op => ?_, fun w op op' h h' => ?_⟩
  · rw [fits_iff, ← argField_extract w (by decide : 0 + 8 ≤ 12), ← argField_extract w (by decide : 0 + 4 ≤ 12)]
    constructor
    · rintro ⟨i, h, rfl⟩
      obtain ⟨rfl, rfl, hwf⟩ := decode_eq_command_iff.1 h
      rw [encode, opField_append, argField_append]
      exact ⟨⟨rfl, arg_lt i⟩, accepted_port i, (wellFormed_iff i).1 hwf⟩
    · rintro ⟨⟨hop, hfit⟩, hacc, hreg, hsel⟩
      obtain ⟨i, hi⟩ := decodeArg_isCommand port hfit hreg hsel
      refine ⟨i, ?_, (decodeArg_command hi).1⟩
      rw [← fields_append w, hop, decode_append hacc, hi]
  · obtain ⟨hop, -⟩ := (fits_iff op w).1 h
    obtain ⟨hop', -⟩ := (fits_iff op' w).1 h'
    have same := congrArg Opcode.ofBits (hop.symm.trans hop')
    simpa using same

/-! ### Words that are no commands -/

theorem encode_extract_opcode (i : Instr) : (encode i).extractLsb' 12 4 = i.opcode.bits := opField_append _ _

theorem encode_extract_arg (i : Instr) {k n : Nat} (h : k + n ≤ 12) :
    (encode i).extractLsb' k n = i.arg.extractLsb' k n := by
  rw [← argField_extract _ h, encode, argField_append]

/-- The opcode map leaves 0x3 to 0x7 and 0xF out (R80, R93). -/
theorem bits_not_reserved (op : Opcode) : op.bits.toNat ∉ [0x3, 0x4, 0x5, 0x6, 0x7, 0xF] := by
  cases op <;> decide

/-- The opcodes of the other port are not accepted (R83). -/
theorem bits_of_accepted (op : Opcode) :
    (op.accepted .Q = true → op.bits.toNat ∉ [0x1, 0x2]) ∧
    (op.accepted .P = true → op.bits.toNat ∉ [0x8, 0x9, 0xA, 0xB, 0xC, 0xD, 0xE]) := by
  cases op <;> decide

/-- The gaps of the register map (R94, R195). -/
theorem assignedRegister_gaps {r : BitVec 8} (h : assignedRegister r = true) :
    ¬((0x0B ≤ r.toNat ∧ r.toNat ≤ 0x0F) ∨ (0x19 ≤ r.toNat ∧ r.toNat ≤ 0x1F) ∨ 0x27 ≤ r.toNat) := by
  simp [assignedRegister, BitVec.le_def] at h
  omega

/-- Settles O4: a word that decodes is the encoding of a well-formed command on its own port, and in none of the
classes. -/
theorem illegalWordsAreRejected : Obligations.IllegalWordsAreRejected := by
  intro port w h
  cases hd : decode port w with
  | illegal e => exact ⟨e, rfl⟩
  | command i =>
    exfalso
    obtain ⟨rfl, hport, hwf⟩ := decode_eq_command_iff.1 hd
    obtain ⟨hreg, hsel⟩ := (wellFormed_iff i).1 hwf
    have accepted := hport ▸ accepted_port i
    have opcode (op : Opcode) (ho : i.opcode.bits = op.bits) : i.opcode = op := by
      simpa using congrArg Opcode.ofBits ho
    have zero (op : Opcode) (ho : i.opcode.bits = op.bits) (n : Nat) (hn : Machine.operandBits op + n = 12) :
        i.arg.extractLsb' (Machine.operandBits op) n = 0 :=
      (extract_eq_zero_iff ..).2 (lt_of_le_of_lt (Nat.mod_le _ _) (opcode op ho ▸ arg_lt i))
    simp (disch := decide) only [encode_extract_opcode, encode_extract_arg] at h
    rcases h with h | ⟨rfl, h⟩ | ⟨rfl, h⟩ | ⟨ho, hz⟩ | ⟨ho, hz⟩ | ⟨ho, hz⟩ | ⟨ho, hz⟩ | ⟨ho, hz⟩ | ⟨ho, -, hgap⟩ |
      ⟨ho, -, hgap⟩
    · exact bits_not_reserved _ h
    · exact (bits_of_accepted _).1 accepted h
    · exact (bits_of_accepted _).2 accepted h
    · exact hz (zero .nop ho 12 rfl)
    · exact hz (zero .tick ho 11 rfl)
    · exact hz (zero .tickc ho 4 rfl)
    · exact hz (zero .rdreg ho 4 rfl)
    · exact hz (zero .fdec ho 8 rfl)
    · exact assignedRegister_gaps (hreg (opcode .rdreg ho)) hgap
    · have := hsel (opcode .fdec ho)
      omega

end Sys2Proof
end

section
/-! TICKC and text fixtures (R79, R98, R131), and the reads of port Q that answer from arrays, flags and the frame
decoder (R92, R160, R177, R191 to R193). -/

namespace Sys2Proof.Machine

/-! ### TICKC -/

theorem sampleOf_underscore : sampleOf 0x5F = some true := rfl

theorem sampleOf_hash : sampleOf 0x23 = some false := rfl

theorem sampleOf_other {c : BitVec 8} (hu : c ≠ 0x5F) (hh : c ≠ 0x23) : sampleOf c = none := by
  rw [sampleOf, if_neg hu, if_neg hh]

/-- Settles O26: the three cases of `sampleOf`. -/
theorem tickcTakesACharacter : Obligations.TickcTakesACharacter := by
  intro s c hr
  refine ⟨_, exec_tickc hr c, ?_, ?_, fun hu hh => ?_⟩
  · rintro rfl
    rw [exec_tick hr, sampleOf_underscore]
  · rintro rfl
    rw [exec_tick hr, sampleOf_hash]
  · rw [sampleOf_other hu hh]
    rfl

theorem tickAll_append (p : Params) (xs ys : List Bool) (b : Block) :
    tickAll p (xs ++ ys) b = tickAll p ys (tickAll p xs b) := List.foldl_append

/-- TICKC takes the samples its one character stands for (R98, R131). -/
theorem exec_tickc_block {s : State} (h : s.Running) (c : BitVec 8) :
    ∃ t, exec (.tickc c) s = .next t ∧ t.cfg = s.cfg ∧ t.inputs = s.inputs ∧
      t.block = tickAll s.cfg (fixtureSamples [c]) s.block := by
  refine ⟨_, exec_tickc h c, ?_⟩
  cases hc : sampleOf c <;> simp [fixtureSamples, hc, tickAll]

/-- A TICKC word presented alone: the step performs it and the block runs on. -/
theorem step_tickc_block {s : State} (h : s.Running) {c : BitVec 8} {rest : List Clock}
    (hi : s.inputs = Clock.single .P (encode (.tickc c)) :: rest) :
    ∃ t, step s = .next t ∧ t.Running ∧ t.cfg = s.cfg ∧ t.inputs = rest ∧
      t.block = tickAll s.cfg (fixtureSamples [c]) s.block := by
  have running : ({ s with inputs := rest } : State).Running := h
  obtain ⟨t, ht, hcfg, hinputs, hblock⟩ := exec_tickc_block running c
  exact ⟨t, (step_word_command (present_single hi) (decodeOfEncodeIsTheCommand (.tickc c) rfl)).trans ht,
    exec_producer_running ht rfl running, hcfg, hinputs, hblock⟩

/-- Settles O27, by induction on the text: each step takes the samples of one character. -/
theorem textFixtureIsItsSamples : Obligations.TextFixtureIsItsSamples := by
  intro s cs rest hr hi
  induction cs generalizing s with
  | nil => exact ⟨s, rfl, hi, rfl⟩
  | cons c cs ih =>
    obtain ⟨t, ht, running, hcfg, hinputs, hblock⟩ := step_tickc_block hr hi
    obtain ⟨u, hu, hrest, hlast⟩ := ih t running hinputs
    refine ⟨u, (run_succ ht _).trans hu, hrest, ?_⟩
    rw [hlast, hcfg, hblock, ← tickAll_append]
    exact congrArg (tickAll s.cfg · s.block) List.filterMap_append.symm

/-! ### Indexed arrays -/

theorem indexed_of_lt {cap : Nat} {i : BitVec 12} (h : i.toNat < cap) (value : Nat → Word) :
    indexed cap i value = some (value i.toNat) := if_pos h

/-- Settles O32: each of the three reads has the element of an index in range. -/
theorem arrayReads : Obligations.ArrayReads := by
  intro s i hr
  refine ⟨fun h => ?_, fun h => ?_, fun h => ?_⟩
  · rw [exec_rdcnt hr, indexed_of_lt h]; rfl
  · rw [exec_rdedge hr, indexed_of_lt h]; rfl
  · rw [exec_rdhh hr, indexed_of_lt h]; rfl

/-! ### STATUS -/

/-- The fields of STATUS from bit 0 up: `new_second`, `rec_valid`, `health_ok`, `last_sym`, `ferr` (R92). -/
theorem statusWord_getLsbD (p : Params) (b : Block) {k : Nat} (hk : k < 32) :
    (statusWord p b).getLsbD k =
      if k < 1 then b.newSecond else if k < 2 then b.recValid else if k < 3 then healthOk p b.health
      else if k < 5 then b.lastSym.getLsbD (k - 3) else (ferrCode b.ferr).getLsbD (k - 5) := by
  simp only [statusWord, BitVec.getLsbD_setWidth, BitVec.getLsbD_append, BitVec.getLsbD_ofBool, hk, decide_true,
    Bool.true_and]
  grind

/-- Settles O34: each field is the range of bits `statusWord_getLsbD` gives it. -/
theorem statusWordBits : Obligations.StatusWordBits := by
  intro p b
  have bit {k : Nat} (hk : k < 32) := statusWord_getLsbD p b hk
  refine ⟨bit (by decide), bit (by decide), ?_, ?_, ?_, ?_⟩
  · rw [bit (by decide)]
    exact decide_eq_true_iff
  · ext j hj
    rw [BitVec.getElem_extractLsb', bit (by omega), if_neg (by omega), if_neg (by omega), if_neg (by omega),
      if_pos (by omega), Nat.add_sub_cancel_left, BitVec.getLsbD_eq_getElem hj]
  · ext j hj
    rw [BitVec.getElem_extractLsb', bit (by omega), if_neg (by omega), if_neg (by omega), if_neg (by omega),
      if_neg (by omega), Nat.add_sub_cancel_left, BitVec.getLsbD_eq_getElem hj]
  · ext j hj
    rw [BitVec.getElem_extractLsb', bit (by omega), if_neg (by omega), if_neg (by omega), if_neg (by omega),
      if_neg (by omega), BitVec.getLsbD_of_ge _ _ (by omega)]
    simp

/-! ### FDEC -/

/-- An assigned selector answers what it selects from the decode of the window as it is now (R177). -/
theorem exec_fdec_of_selector {s : State} (h : s.Running) {k : BitVec 4} {sel : Selector}
    (hk : Selector.ofBits k = some sel) :
    exec (.fdec k) s = .next { s with out := .onQ ((fdecode s.cfg s.block.sring).select sel) false } := by
  rw [exec_fdec h, hk]
  rfl

theorem ofSelector_unassigned {k : BitVec 4} (h : 10 ≤ k.toNat) : Selector.ofBits k = none := by
  have all : ∀ k : BitVec 4, 10 ≤ k.toNat → Selector.ofBits k = none := by decide
  exact all k h

/-- Selectors 1 to 9 name fields of the record (R177). -/
theorem ofSelector_field {k : BitVec 4} (h1 : 1 ≤ k.toNat) (h9 : k.toNat ≤ 9) :
    ∃ f, Selector.ofBits k = some (.field f) := by
  have all : ∀ k : BitVec 4, 1 ≤ k.toNat → k.toNat ≤ 9 →
      ∃ f ∈ [RecField.year, .yday, .hour, .minute, .second, .ly, .ls, .dst, .ut1],
        Selector.ofBits k = some (.field f) := by decide
  obtain ⟨f, -, hf⟩ := all k h1 h9
  exact ⟨f, hf⟩

/-- Settles O36: the window is the definition's own, and an FDEC answers what `exec_fdec_of_selector` says, on a selector
that `ofSelector_unassigned` or `ofSelector_field` classes. -/
theorem fdecAnswersFromTheWindow : Obligations.FdecAnswersFromTheWindow := by
  refine ⟨fun _ _ => rfl, fun s hr => ⟨fun k hk => ?_, fun e he => ?_, fun r hd => ?_⟩⟩
  · refine ⟨_, exec_fdec hr k, ?_⟩
    rw [ofSelector_unassigned hk]
    exact takeFault_entry s .Q .illegal
  · refine ⟨?_, fun k h1 h9 => ?_⟩
    · rw [exec_fdec_of_selector hr (sel := .err) rfl, he]
      rfl
    · obtain ⟨f, hf⟩ := ofSelector_field h1 h9
      rw [exec_fdec_of_selector hr hf, he]
      rfl
  · have field {k : BitVec 4} {f : RecField} (hk : Selector.ofBits k = some (.field f)) :
        exec (.fdec k) s = .next { s with out := .onQ (r.word f) false } := by
      rw [exec_fdec_of_selector hr hk, hd]
      rfl
    refine ⟨?_, field (f := .year) rfl, field (f := .yday) rfl, field (f := .hour) rfl, field (f := .minute) rfl,
      field (f := .second) rfl, field (f := .ly) rfl, field (f := .ls) rfl, field (f := .dst) rfl,
      field (f := .ut1) rfl⟩
    rw [exec_fdec_of_selector hr (sel := .err) rfl, hd]
    rfl

end Sys2Proof.Machine
end

section
/-! The classifier: the score counts agreement with the ideal waveform, and clean seconds are recognised (R73, R144,
R146, R149). -/

namespace Sys2Proof.Machine

/-! ### The ideal waveform on the four intervals -/

/-- The ideal second of a symbol is reduced in interval A, in B for 1 and Mark, in C for Mark, and never in D (R146). -/
theorem idealReduced_eq (p : Params) (sym : Symbol) (k : Nat) :
    (k < boundA p → idealReduced p sym k = true) ∧
    (boundA p ≤ k → k < boundB p → idealReduced p sym k = (sym == symOne || sym == symMark)) ∧
    (boundB p ≤ k → k < boundC p → idealReduced p sym k = (sym == symMark)) ∧
    (boundC p ≤ k → idealReduced p sym k = false) := by
  have hAB := boundA_le_boundB p
  have hBC := boundB_le_boundC p
  rw [idealReduced]
  by_cases hm : sym = symMark
  · rw [if_pos hm, hm]
    simp
    omega
  · rw [if_neg hm, beq_eq_false_iff_ne.2 hm]
    by_cases ho : sym = symOne
    · rw [if_pos ho, ho]
      simp
      omega
    · rw [if_neg ho, beq_eq_false_iff_ne.2 ho]
      simp
      omega

/-- The number of offsets of an interval at which the sample is that of the ideal second (R146). -/
def agreementIn (p : Params) (raw : Ring) (sym : Symbol) (lo hi : Nat) : Nat :=
  (List.range' lo (hi - lo)).countP fun k => raw.sample (p.buffer - p.subsec + k) == idealReduced p sym k

/-- An interval on which the ideal second is constant is scored by its agreement (R146). -/
theorem intervalScore_eq_agreementIn {p : Params} (raw : Ring) {sym : Symbol} {lo hi : Nat} {expect : Bool}
    (h : ∀ k, lo ≤ k → k < hi → idealReduced p sym k = expect) :
    intervalScore expect (hi - lo) (reducedIn p raw lo hi) = agreementIn p raw sym lo hi := by
  rw [intervalScore_eq_countP, agreementIn]
  refine List.countP_congr fun k hk => ?_
  rw [List.mem_range'_1] at hk
  rw [h k hk.1 (by omega)]

theorem agreementIn_add (p : Params) (raw : Ring) (sym : Symbol) {lo mid hi : Nat} (hl : lo ≤ mid) (hh : mid ≤ hi) :
    agreementIn p raw sym lo mid + agreementIn p raw sym mid hi = agreementIn p raw sym lo hi := by
  have cut : List.range' lo (hi - lo) = List.range' lo (mid - lo) ++ List.range' mid (hi - mid) := by
    rw [show hi - lo = (mid - lo) + (hi - mid) by omega, ← List.range'_append_1, show lo + (mid - lo) = mid by omega]
  rw [agreementIn, agreementIn, agreementIn, cut, List.countP_append]

/-- The slot score of a symbol other than Invalid is the agreement over the whole second (R146). -/
theorem slotScore_eq_agreement {p : Params} (h : 2 ≤ p.subsec) (raw : Ring) {sym : Symbol} (hs : sym ≠ symInvalid) :
    slotScore p sym (reducedIn p raw 0 (boundA p)) (reducedIn p raw (boundA p) (boundB p))
      (reducedIn p raw (boundB p) (boundC p)) (reducedIn p raw (boundC p) p.subsec) =
    agreementIn p raw sym 0 p.subsec := by
  have ideal := idealReduced_eq p sym
  simp only [forall_and] at ideal
  obtain ⟨inA, inB, inC, inD⟩ := ideal
  have hAB := boundA_le_boundB p
  have hBC := boundB_le_boundC p
  have hC := boundC_le_subsec h
  have scoreA := intervalScore_eq_agreementIn (lo := 0) raw fun k _ => inA k
  have scoreD := intervalScore_eq_agreementIn (hi := p.subsec) raw fun k hl _ => inD k hl
  rw [Nat.sub_zero] at scoreA
  rw [slotScore, if_neg hs, scoreA, intervalScore_eq_agreementIn raw inB, intervalScore_eq_agreementIn raw inC, scoreD,
    agreementIn_add p raw sym (Nat.zero_le _) hAB, agreementIn_add p raw sym (Nat.zero_le _) hBC,
    agreementIn_add p raw sym (Nat.zero_le _) hC]

theorem slotScore_invalid (p : Params) (a b c d : Nat) : slotScore p symInvalid a b c d = 0 := rfl

/-- Settles O47, by `slotScore_eq_agreement`. -/
theorem scoreCountsAgreement : Obligations.ScoreCountsAgreement := by
  intro p raw h
  refine ⟨fun hs => ?_, fun hs => ?_⟩
  · exact (congrArg (slotScore p · _ _ _ _) hs).trans (slotScore_invalid ..)
  · rw [List.range_eq_range']
    exact slotScore_eq_agreement h raw hs

/-! ### Clean seconds -/

/-- A second that is the ideal one of the symbol decided has the greatest score (R146, R149). -/
theorem classify_of_ideal {p : Params} {raw : Ring} (h : 2 ≤ p.subsec) {sym : Symbol} (hs : sym ≠ symInvalid)
    (hsym : (classify p raw).sym = sym)
    (hideal : ∀ k < p.subsec, raw.sample (p.buffer - p.subsec + k) = idealReduced p sym k) :
    classify p raw = ⟨sym, p.subsec⟩ := by
  have score : (classify p raw).score = p.subsec := by
    rw [(scoreCountsAgreement p raw h).2 (hsym ▸ hs), hsym, List.countP_eq_length.2, List.length_range]
    intro k hk
    rw [hideal k (List.mem_range.1 hk), beq_self_eq_true]
  rw [← hsym, ← score]

/-- Settles O48: the counts of intervals B and C are all or nothing by `reducedIn_secondIs`, which decides the symbol, and
the second is then the ideal one of that symbol. -/
theorem cleanSecondsClassify : Obligations.CleanSecondsClassify := by
  intro p raw h hB hC
  have hS := boundC_le_subsec h
  refine ⟨fun hs => ?_, fun hs => ?_, fun hs => ?_⟩
  · have countB := (reducedIn_secondIs hs (lo := boundA p) (hi := boundB p) (by omega)).2 (by omega)
    have countC := (reducedIn_secondIs hs (lo := boundB p) (hi := boundC p) (by omega)).2 (by omega)
    refine classify_of_ideal h (by decide) ?_ hs
    rw [classify, countB, countC, decideSymbol, if_neg (by omega), if_neg (by omega)]
  · have countB := (reducedIn_secondIs hs (lo := boundA p) (hi := boundB p) (by omega)).1 (by omega)
    have countC := (reducedIn_secondIs hs (lo := boundB p) (hi := boundC p) (by omega)).2 (by omega)
    refine classify_of_ideal h (by decide) ?_ hs
    rw [classify, countB, countC, decideSymbol, if_neg (by omega), if_pos (by omega)]
  · have countB := (reducedIn_secondIs hs (lo := boundA p) (hi := boundB p) (by omega)).1 (by omega)
    have countC := (reducedIn_secondIs hs (lo := boundB p) (hi := boundC p) (by omega)).1 (by omega)
    refine classify_of_ideal h (by decide) ?_ hs
    rw [classify, countB, countC, decideSymbol, if_pos (by omega), if_pos (by omega)]

end Sys2Proof.Machine
end

section
/-! The fields of an accepted frame (R78, R161, R166 to R169). -/

namespace Sys2Proof.Machine

@[simp] theorem weightedSum_nil (w : List Symbol) : weightedSum w [] = 0 := rfl

@[simp] theorem weightedSum_cons (w : List Symbol) (pos weight : Nat) (group : List (Nat × Nat)) :
    weightedSum w ((pos, weight) :: group) = weight * (w.getD pos 0).toNat + weightedSum w group := rfl

/-- Settles O50: the record is the one `buildRecord` makes of the groups, and each group is its weighted sum. -/
theorem frameFields : Obligations.FrameFields := by
  intro policy w r h
  obtain ⟨-, -, -, -, u, hu, rfl⟩ := decodeWindow_decoded h
  have offset := (ut1Offset_eq_some_iff w u).1 hu
  simp only [buildRecord, groupValue, layout, weightedSum_cons, weightedSum_nil] at offset ⊢
  refine ⟨?_, ?_, ?_, ?_, trivial, ?_, ?_, ?_, ?_, ?_⟩ <;> omega

end Sys2Proof.Machine
end

section
/-! The assembler (R95 to R97). -/

namespace Sys2Proof.Machine

/-- A clean second is its run of TICK 1 and then TICK 0 for the rest (R73, R97). -/
theorem tickWords_cleanSecond (p : Params) (ones : Nat) :
    tickWords (cleanSecond p ones) =
      List.replicate ones (Port.P, 0x1001) ++ List.replicate (p.subsec - ones) (Port.P, 0x1000) := by
  rw [tickWords, cleanSecond, List.map_append, List.map_replicate, List.map_replicate]
  rfl

/-- A line that is one token, a directive of its own (R97). -/
theorem assemble_word {p : Params} {line : String} {ws : List PortWord}
    (hl : lexFrom (.plain []) line.toList = some [.word line])
    (hp : parseProgram p 2 [.word line] = some (ws, [])) : assemble p line = some ws := by
  simp [assemble, hl, hp]

/-- The three clean-second lines, whatever the parameters (R97). -/
theorem assemble_cleanSecond (p : Params) :
    assemble p ".sym0" = some (symWords p symZero) ∧ assemble p ".sym1" = some (symWords p symOne) ∧
    assemble p ".symM" = some (symWords p symMark) := by
  exact ⟨assemble_word (by decide) (by simp [parseProgram]), assemble_word (by decide) (by simp [parseProgram]),
    assemble_word (by decide) (by simp [parseProgram])⟩

theorem bucketOf_eq (ms subsec : Nat) : bucketOf ms subsec = (500 + ms * subsec) / 1000 := by
  rw [bucketOf, Nat.add_comm]

/-- Settles O6: the closed lines are assembled; the clean seconds are `assemble_cleanSecond` written out, at every
`SUBSEC`. -/
theorem specLinesAssemble : Obligations.SpecLinesAssemble := by
  refine ⟨by decide, by decide, by decide, by decide, by decide, by decide, by decide, by decide, by decide, by decide,
    by decide, by decide, by decide, fun p => ?_⟩
  simp only [List.forall_mem_cons, ← bucketOf_eq, ← tickWords_cleanSecond]
  obtain ⟨sym0, sym1, symM⟩ := assemble_cleanSecond p
  exact ⟨sym0, sym1, symM, by simp⟩

end Sys2Proof.Machine
end

section
/-! NOP, and what every command of port P does to a running block (R120, R133, R241, R250). -/

namespace Sys2Proof.Machine

/-- Settles O18: the two answers of `exec_nop`. -/
theorem nopDoesNothing : Obligations.NopDoesNothing := fun _ hr => ⟨exec_nop hr .Q, exec_nop hr .P⟩

/-- A port P command on a running block takes a sample, or puts out no events (R120, R121, R131). -/
theorem exec_producer {s : State} (h : s.Running) {i : Instr} (hp : i.port = .P) :
    ∃ t, exec i s = .next t ∧ (t = s.noEvents ∨ ∃ smp, t = s.takeSample smp) := by
  cases i with
  | nop port => cases hp; exact ⟨_, exec_nop h .P, .inl rfl⟩
  | tick smp => exact ⟨_, exec_tick h smp, .inr ⟨smp, rfl⟩⟩
  | tickc c =>
    refine ⟨_, exec_tickc h c, ?_⟩
    split
    · exact .inr ⟨_, rfl⟩
    · exact .inl rfl
  | rdbit | rdsym | rdcnt | rdedge | rdhh | rdreg | fdec => cases hp

/-- Settles O41: neither of the two effects of a port P command touches the fault state. -/
theorem producerCommandsNeverFault : Obligations.ProducerCommandsNeverFault := by
  intro s i hp hr
  obtain ⟨t, ht, rfl | ⟨smp, rfl⟩⟩ := exec_producer hr hp
  · exact ⟨_, _, _, _, ht, hr, rfl, noEvents_out s⟩
  · exact ⟨_, _, _, _, ht, (tick_fault ..).trans hr, tick_faultCause .., takeSample_out s smp⟩

end Sys2Proof.Machine
end

section
/-! The start of the second that TICK finds (R124), the boundary it declares (R126, R127) and what it leaves unchanged
(R40, R42, R121). -/

namespace Sys2Proof.Machine

/-! ### The scan -/

theorem any_pos_iff {es : List Int} {n : Nat} (hlen : es.length = n) :
    es.any (0 < ·) = true ↔ ∃ k, k < n ∧ 0 < es.getD k 0 := by
  subst hlen
  simp only [List.any_eq_true, decide_eq_true_eq, List.mem_iff_getElem]
  constructor
  · rintro ⟨_, ⟨k, hk, rfl⟩, hpos⟩
    exact ⟨k, hk, by rwa [List.getD_eq_getElem _ _ hk]⟩
  · rintro ⟨k, hk, hpos⟩
    exact ⟨_, ⟨k, hk, rfl⟩, by rwa [List.getD_eq_getElem _ _ hk] at hpos⟩

/-- The readings of `SOS_SCAN` agree as soon as some edge is positive, and the default needs none (R124, D6). -/
theorem nextSos_eq_argmax {p : Params} {es : List Int} (h : p.sosScan = .argmax ∨ es.any (0 < ·) = true) (sos : Nat) :
    nextSos p es sos = (leastArgmax es + 1) % p.subsec := by
  rcases h with hs | hany
  · simp only [nextSos, hs]
  · unfold nextSos
    split
    · rfl
    · rw [scanZero_eq, if_pos hany]
    · rw [if_pos hany]

/-- With no positive edge the scan from the constant 0 stays at index 0 (R124, U3). -/
theorem nextSos_zeroInit {p : Params} {es : List Int} (hs : p.sosScan = .zeroInit) (h : es.any (0 < ·) = false)
    (sos : Nat) : nextSos p es sos = 1 % p.subsec := by
  simp [nextSos, hs, scanZero_eq, h]

/-- With no positive edge the hold scan keeps `sos` (R124, U3). -/
theorem nextSos_hold {p : Params} {es : List Int} (hs : p.sosScan = .hold) (h : es.any (0 < ·) = false) (sos : Nat) :
    nextSos p es sos = sos := by
  simp [nextSos, hs, h]

/-- Settles O20: the case split of the scan on whether some edge is positive, and `leastArgmax_spec`. -/
theorem tickFindsTheSteepestRise : Obligations.TickFindsTheSteepestRise := by
  intro s smp ⟨hp, hb⟩ hr
  refine ⟨_, exec_tick hr smp, ?_⟩
  rw [takeSample_block, tick_sos, tick_edges]
  have hlen : (nextEdges s.cfg smp s.block).length = s.cfg.subsec := (nextEdges_length ..).trans hb.edges_length
  generalize nextEdges s.cfg smp s.block = es at hlen ⊢
  refine ⟨fun h => ?_, fun h => ?_⟩
  · have nonempty : es ≠ [] := List.ne_nil_of_length_pos (hlen ▸ legal_subsec_pos hp)
    obtain ⟨inRange, greatest, least⟩ := leastArgmax_spec nonempty
    refine ⟨_, hlen ▸ inRange, nextSos_eq_argmax (h.imp_right (any_pos_iff hlen).2) _, fun k hk => ?_, least⟩
    rw [List.getD_eq_getElem es 0 (hlen ▸ hk)]
    exact greatest _ (List.getElem_mem _)
  · have none_pos : es.any (0 < ·) = false := by
      rw [← Bool.not_eq_true, any_pos_iff hlen]
      rintro ⟨k, hk, hpos⟩
      exact (h k hk).not_gt hpos
    exact ⟨fun hs => nextSos_zeroInit hs none_pos _, fun hs => nextSos_hold hs none_pos _⟩

/-! ### The boundary -/

/-- Steps 6 and 7 in terms of the block TICK leaves: when it declares a boundary (R126). -/
theorem tick_newSecond_iff (p : Params) (smp : Bool) (b : Block) :
    (tick p smp b).1.newSecond = true ↔
      p.forceTss < b.tss ∨ (p.subsec < 2 * b.tss ∧
        ((tick p smp b).1.subsec = (tick p smp b).1.sos ∨ (tick p smp b).1.subsec = b.sos)) := by
  rw [tick_newSecond, boundaryOf_track_iff, tick_subsec, tick_sos, track_subsec, track_sos]

/-- Without a boundary TICK is steps 1 to 5 and the increment of `tss` (R127). -/
theorem tick_of_no_boundary {p : Params} {smp : Bool} {b : Block} (h : (tick p smp b).1.newSecond = false) :
    (tick p smp b).1 = passSecond (track p smp b) := by
  rcases tick_cases p smp b with ⟨-, ht⟩ | ⟨hb, -⟩ | ⟨hb, -⟩
  · rw [ht]
  · rw [tick_newSecond, hb] at h; cases h
  · rw [tick_newSecond, hb] at h; cases h

theorem tick_tss_of_no_boundary {p : Params} {smp : Bool} {b : Block} (h : (tick p smp b).1.newSecond = false) :
    (tick p smp b).1.tss = b.tss + 1 := by
  rw [tick_of_no_boundary h, passSecond_tss, track_tss]

theorem tick_tss_of_boundary {p : Params} {smp : Bool} {b : Block} (h : (tick p smp b).1.newSecond = true) :
    (tick p smp b).1.tss = 0 := by
  rcases tick_cases p smp b with ⟨-, ht⟩ | ⟨-, -, ht⟩ | ⟨-, -, ht⟩ <;> rw [ht] at h ⊢
  · cases h
  · rfl
  · exact latchFrame_tss ..

/-- Settles O21: `tick_newSecond_iff` and `tss` in its two outcomes. -/
theorem tickDeclaresTheBoundary : Obligations.TickDeclaresTheBoundary := fun _ smp hr =>
  ⟨_, exec_tick hr smp, tick_newSecond_iff .., tick_tss_of_boundary, tick_tss_of_no_boundary⟩

/-- Settles O22: without a boundary the block is `passSecond` of `track`, and neither writes the fields named. -/
theorem tickFrame : Obligations.TickFrame := by
  intro s smp hr
  refine ⟨_, exec_tick hr smp, fun hn => ?_, tick_fault .., tick_faultCause .., rfl, rfl, rfl⟩
  rw [takeSample_block] at hn ⊢
  rw [tick_of_no_boundary hn]
  exact ⟨rfl, rfl, rfl, rfl, rfl, rfl, rfl, rfl⟩

end Sys2Proof.Machine
end

section
/-! How far apart boundaries are: the debounce floor and the forced boundary (R126, R127). -/

namespace Sys2Proof.Machine

theorem tickAll_cons (p : Params) (smp : Bool) (samples : List Bool) (b : Block) :
    tickAll p (smp :: samples) b = tickAll p samples (tick p smp b).1 := rfl

/-- A TICK within the debounce floor declares no boundary (R126). -/
theorem tick_debounced {p : Params} {b : Block} (hforce : p.subsec / 2 ≤ p.forceTss) (ht : b.tss ≤ p.subsec / 2)
    (smp : Bool) : (tick p smp b).1.newSecond = false := by
  rw [← Bool.not_eq_true, tick_newSecond_iff]
  rintro (forced | ⟨debounced, -⟩) <;> omega

/-- A run of samples within the debounce floor declares no boundary, and `tss` counts it (R126, R127). -/
theorem tickAll_debounced {p : Params} (hforce : p.subsec / 2 ≤ p.forceTss) (samples : List Bool) {b : Block}
    (hn : b.newSecond = false) (hlen : b.tss + samples.length ≤ p.subsec / 2 + 1) :
    (tickAll p samples b).newSecond = false ∧ (tickAll p samples b).tss = b.tss + samples.length := by
  induction samples generalizing b with
  | nil => exact ⟨hn, rfl⟩
  | cons smp samples ih =>
    rw [List.length_cons] at hlen ⊢
    have quiet := tick_debounced hforce (show b.tss ≤ p.subsec / 2 by omega) smp
    have counted := tick_tss_of_no_boundary quiet
    rw [tickAll_cons]
    obtain ⟨hnew, htss⟩ := ih quiet (by omega)
    exact ⟨hnew, by omega⟩

/-- Settles O28: after the first sample `new_second` is 0, and `tickAll_debounced` has the rest. -/
theorem debounceFloor : Obligations.DebounceFloor := by
  intro p b samples htss hforce hne hlen
  cases samples with
  | nil => exact absurd rfl hne
  | cons smp samples =>
    rw [List.length_cons] at hlen ⊢
    have quiet := tick_debounced hforce (show b.tss ≤ p.subsec / 2 by omega) smp
    have counted := tick_tss_of_no_boundary quiet
    obtain ⟨hnew, hcount⟩ := tickAll_debounced hforce samples quiet (by omega)
    exact ⟨hnew, by rw [tickAll_cons]; omega⟩

/-- A run long enough to carry `tss` past `FORCE_TSS` and take one sample more declares a boundary (R126, R127). -/
theorem exists_boundary {p : Params} (samples : List Bool) {b : Block} (ht : b.tss ≤ p.forceTss + 1)
    (hlen : p.forceTss + 1 < b.tss + samples.length) :
    ∃ n, 0 < n ∧ n ≤ samples.length ∧ (tickAll p (samples.take n) b).newSecond = true := by
  induction samples generalizing b with
  | nil => exact absurd hlen ht.not_gt
  | cons smp samples ih =>
    cases hn : (tick p smp b).1.newSecond with
    | true => exact ⟨1, by simp, by simp, hn⟩
    | false =>
      have not_forced : ¬p.forceTss < b.tss := fun forced => by
        rw [(tick_newSecond_iff p smp b).2 (.inl forced)] at hn; cases hn
      have counted := tick_tss_of_no_boundary hn
      rw [List.length_cons] at hlen ⊢
      obtain ⟨n, -, hle, hnew⟩ := ih (b := (tick p smp b).1) (by omega) (by omega)
      exact ⟨n + 1, n.succ_pos, by omega, hnew⟩

/-- Settles O29: the run of `FORCE_TSS + 2` samples from `tss = 0` is long enough. -/
theorem boundaryIsForced : Obligations.BoundaryIsForced := by
  intro p b samples htss hlen
  exact hlen ▸ exists_boundary samples (by omega) (by omega)

end Sys2Proof.Machine
end

section
/-! The classifier decides by the counts of intervals B and C (R140, R142, R144). -/

namespace Sys2Proof.Machine

/-- A bound with the half of the rounding written first, as the statement writes it (R140). -/
theorem half_add_div_eq_bucketOf (ms subsec : Nat) : (500 + ms * subsec) / 1000 = bucketOf ms subsec := by
  rw [bucketOf, Nat.add_comm]

theorem classify_sym (p : Params) (raw : Ring) :
    (classify p raw).sym = decideSymbol (boundB p - boundA p) (boundC p - boundB p)
      (reducedIn p raw (boundA p) (boundB p)) (reducedIn p raw (boundB p) (boundC p)) := rfl

/-- The four decisions, by whether more than half of interval C and of interval B is reduced (R144). -/
theorem decideSymbol_cases (lb lc countB countC : Nat) :
    (lc < 2 * countC → lb < 2 * countB → decideSymbol lb lc countB countC = symMark) ∧
    (lc < 2 * countC → ¬lb < 2 * countB → decideSymbol lb lc countB countC = symInvalid) ∧
    (¬lc < 2 * countC → lb < 2 * countB → decideSymbol lb lc countB countC = symOne) ∧
    (¬lc < 2 * countC → ¬lb < 2 * countB → decideSymbol lb lc countB countC = symZero) := by
  rw [decideSymbol]
  refine ⟨fun hc hb => ?_, fun hc hb => ?_, fun hc hb => ?_, fun hc hb => ?_⟩
  · rw [if_pos hc, if_pos hb]
  · rw [if_pos hc, if_neg hb]
  · rw [if_neg hc, if_pos hb]
  · rw [if_neg hc, if_neg hb]

/-- Settles O46: the counts over the whole second are those of intervals B and C by `countP_interval`, and
`decideSymbol_cases` says what they decide. -/
theorem classifierDecides : Obligations.ClassifierDecides := by
  intro p raw h _ _ _ _ hB hC hlb hlc
  have hAB := boundA_le_boundB p
  have hBC := boundB_le_boundC p
  have hCS := boundC_le_subsec h
  simp only [half_add_div_eq_bucketOf] at hB hC hlb hlc
  have countB := hB.trans (countP_interval p raw hAB (hBC.trans hCS))
  have countC := hC.trans (countP_interval p raw hBC hCS)
  rw [classify_sym, countB, countC, hlb, hlc]
  exact decideSymbol_cases ..

end Sys2Proof.Machine
end

section
/-! A frame is rejected by the first check that fails, and by nothing else (R163 to R170, R173). -/

namespace Sys2Proof.Machine

/-- An Invalid symbol passes its check only under the policy that reads it as a value (R165, D12). -/
theorem invalidCheck_iff (policy : InvalidPolicy) (w : List Symbol) :
    (policy == .reject && hasInvalid w) = false ↔ (policy = .reject → ∀ pos < 60, (symAt w pos).toNat ≠ 3) := by
  have clean : hasInvalid w = false ↔ ∀ pos < 60, (symAt w pos).toNat ≠ 3 := by
    rw [← Bool.not_eq_true, hasInvalid_iff]
    push Not
    rfl
  rw [← clean]
  cases policy <;> simp

/-- No sign code but 5 and 2 has an offset (R168). -/
theorem ut1Offset_isSome_iff (w : List Symbol) :
    (∃ u, ut1Offset w = some u) ↔ groupValue w .ut1Sign = 5 ∨ groupValue w .ut1Sign = 2 := by
  simp only [ut1Offset_eq_some_iff]
  constructor
  · rintro ⟨u, ⟨h5, -⟩ | ⟨h2, -⟩⟩
    · exact .inl h5
    · exact .inr h2
  · rintro (h5 | h2)
    · exact ⟨_, .inl ⟨h5, rfl⟩⟩
    · exact ⟨_, .inr ⟨h2, rfl⟩⟩

/-! ### What each check decides, on a window that passed those before it -/

section Checks

variable {policy : InvalidPolicy} {w : List Symbol}

theorem decodeWindow_of_marks_wrong (hm : ¬marksRight w = true) : decodeWindow policy w = .rejected .marks := by
  simp [decodeWindow, hm]

variable (hm : marksRight w = true)
include hm

theorem decodeWindow_of_zeros_wrong (hz : ¬zerosRight w = true) : decodeWindow policy w = .rejected .zeros := by
  simp [decodeWindow, hm, hz]

variable (hz : zerosRight w = true)
include hz

theorem decodeWindow_of_invalid (hi : ¬(policy == .reject && hasInvalid w) = false) :
    decodeWindow policy w = .rejected .invalid := by
  rw [Bool.not_eq_false] at hi
  rw [decodeWindow, if_neg (by simp [hm]), if_neg (by simp [hz]), if_pos hi]

variable (hi : (policy == .reject && hasInvalid w) = false)
include hi

theorem decodeWindow_of_digitOverflow (hd : ¬digitOverflow w = false) : decodeWindow policy w = .rejected .digit := by
  simp [decodeWindow, hm, hz, hi, hd]

variable (hd : digitOverflow w = false)
include hd

theorem decodeWindow_of_sign_wrong (hs : ¬∃ u, ut1Offset w = some u) : decodeWindow policy w = .rejected .sign := by
  have no_offset : ut1Offset w = none := Option.eq_none_iff_forall_ne_some.2 fun u hu => hs ⟨u, hu⟩
  simp [decodeWindow, hm, hz, hi, hd, no_offset]

theorem decodeWindow_of_checks_passed (hs : ∃ u, ut1Offset w = some u) : ∃ r, decodeWindow policy w = .decoded r := by
  obtain ⟨u, hu⟩ := hs
  exact ⟨buildRecord w u, by simp [decodeWindow, hm, hz, hi, hd, hu]⟩

end Checks

/-- Settles O49: each check read on the positions and weights of the layout, and what each decides. -/
theorem frameChecksInOrder : Obligations.FrameChecksInOrder := by
  intro policy w at' marks zeros clean digits sign
  have hm : marksRight w = true ↔ marks := marksRight_iff w
  have hz : zerosRight w = true ↔ zeros := zerosRight_iff w
  have hi : (policy == .reject && hasInvalid w) = false ↔ clean := invalidCheck_iff policy w
  have hd : digitOverflow w = false ↔ digits := by
    rw [digitOverflow_eq_false_iff]
    simp [digitGroups, groupValue, layout, digits, at', Nat.add_assoc]
  have hs : (∃ u, ut1Offset w = some u) ↔ sign := by
    rw [ut1Offset_isSome_iff]
    simp [groupValue, layout, sign, at', Nat.add_assoc]
  rw [← hm, ← hz, ← hi, ← hd, ← hs]
  exact ⟨decodeWindow_of_marks_wrong, decodeWindow_of_zeros_wrong, decodeWindow_of_invalid,
    decodeWindow_of_digitOverflow, decodeWindow_of_sign_wrong, decodeWindow_of_checks_passed, rfl, rfl, rfl, rfl, rfl⟩

end Sys2Proof.Machine
end

section
/-! The frame decode a boundary attempts, its latches, and FDEC beside them (R162, R175 to R177, R195). -/

namespace Sys2Proof.Machine

/-- A boundary that pushed a Mark latches the decode of the window that ends with it (R162, R175). -/
theorem tick_of_mark {p : Params} {smp : Bool} {b : Block} (hn : (tick p smp b).1.newSecond = true)
    (hm : (tick p smp b).1.lastSym = symMark) :
    tick p smp b =
      (latchFrame (fdecode p (tick p smp b).1.sring) (closeSecond p (track p smp b)),
        ⟨true, symMark, frameLatched (fdecode p (tick p smp b).1.sring)⟩) := by
  obtain ⟨hsym, hring, -, -⟩ := tick_of_boundary hn
  rw [hring]
  rw [hsym] at hm
  rcases tick_cases p smp b with ⟨hb, -⟩ | ⟨-, other, -⟩ | ⟨-, -, ht⟩
  · rw [tick_newSecond, hb] at hn; cases hn
  · exact absurd hm other
  · rw [ht, hm]

/-- A TICK that attempts no decode leaves the latches alone (R175, R176). -/
theorem tick_latches_of_not_mark {p : Params} {smp : Bool} {b : Block}
    (h : ¬((tick p smp b).1.newSecond = true ∧ (tick p smp b).1.lastSym = symMark)) :
    (tick p smp b).1.ferr = b.ferr ∧ (tick p smp b).1.record = b.record ∧
    (tick p smp b).1.recValid = b.recValid ∧ (tick p smp b).1.frames = b.frames := by
  rcases tick_cases p smp b with ⟨-, ht⟩ | ⟨-, -, ht⟩ | ⟨-, hm, ht⟩ <;> rw [ht] at h ⊢
  · exact ⟨rfl, rfl, rfl, rfl⟩
  · exact ⟨rfl, rfl, rfl, rfl⟩
  · exact absurd ⟨latchFrame_newSecond .., (latchFrame_lastSym ..).trans hm⟩ h

/-- Settles O24: `tick_of_mark` and the two outcomes of `latchFrame`, else `tick_latches_of_not_mark`. -/
theorem tickAttemptsAFrameOnAMark : Obligations.TickAttemptsAFrameOnAMark := by
  intro s smp hr
  refine ⟨_, exec_tick hr smp, fun hn hm => ?_, tick_latches_of_not_mark⟩
  have ht := tick_of_mark hn hm
  rw [takeSample_block, takeSample_out]
  refine ⟨fun r hd => ?_, fun e he => ?_⟩
  · rw [hd] at ht
    rw [ht]
    exact ⟨rfl, rfl, rfl, rfl, rfl⟩
  · rw [he] at ht
    rw [ht]
    exact ⟨rfl, rfl, rfl, rfl, rfl⟩

/-- No rejection has the code of success (R170). -/
theorem FrameError.code_ne_zero (e : FrameError) : e.code ≠ 0 := by cases e <;> decide

/-- An assigned register answers its value (R194). -/
theorem exec_rdreg_of_number {s : State} (h : s.Running) {r : BitVec 8} {g : Reg} (hg : Reg.ofNumber r = some g) :
    exec (.rdreg r) s = .next { s with out := .onQ (registerValue s.cfg s.block g) false } := by
  rw [exec_rdreg h, hg]
  rfl

/-- Selectors 1 to 9 and the record registers name the same fields in the same order (R177, R195). -/
theorem selector_register_pairs :
    ∀ pair ∈ ([(1, 0x10), (2, 0x11), (3, 0x12), (4, 0x13), (5, 0x14), (6, 0x15), (7, 0x16), (8, 0x17),
      (9, 0x18)] : List (BitVec 4 × BitVec 8)),
      ∃ f, Selector.ofBits pair.1 = some (.field f) ∧ Reg.ofNumber pair.2 = some (.record f) := by
  simp only [List.forall_mem_cons, List.not_mem_nil, false_imp_iff, implies_true, and_true]
  exact ⟨⟨.year, rfl, rfl⟩, ⟨.yday, rfl, rfl⟩, ⟨.hour, rfl, rfl⟩, ⟨.minute, rfl, rfl⟩, ⟨.second, rfl, rfl⟩,
    ⟨.ly, rfl, rfl⟩, ⟨.ls, rfl, rfl⟩, ⟨.dst, rfl, rfl⟩, ⟨.ut1, rfl, rfl⟩⟩

/-- Settles O37: `tickAttemptsAFrameOnAMark` says what the TICK latched of the very window that FDEC decodes. -/
theorem fdecAgreesWithTheLatch : Obligations.FdecAgreesWithTheLatch := by
  intro s t smp hr ht hn hm
  obtain ⟨_, ht', attempt, -⟩ := tickAttemptsAFrameOnAMark s smp hr
  cases ht'.symm.trans ht
  obtain ⟨hcfg, hfault⟩ : t.cfg = s.cfg ∧ t.block.fault = s.block.fault := by
    cases (exec_tick hr smp).symm.trans ht
    exact ⟨rfl, tick_fault ..⟩
  have running : t.Running := hfault.trans hr
  obtain ⟨accepted, refused⟩ := attempt hn hm
  rw [exec_fdec_of_selector running (sel := .err) rfl]
  cases hd : fdecode s.cfg t.block.sring with
  | decoded r =>
    obtain ⟨hrecord, -, hferr, -, -⟩ := accepted r hd
    rw [hcfg, hd, hferr]
    refine ⟨rfl, fun _ pair hpair => ?_⟩
    obtain ⟨f, hsel, hreg⟩ := selector_register_pairs pair hpair
    rw [exec_fdec_of_selector running hsel, exec_rdreg_of_number running hreg, hcfg, hd, ← hrecord]
    rfl
  | rejected e =>
    obtain ⟨hferr, -⟩ := refused e hd
    rw [hcfg, hd, hferr]
    refine ⟨rfl, fun latched => ?_⟩
    rw [latched] at hferr
    exact absurd hferr.symm e.code_ne_zero

end Sys2Proof.Machine
end

section
/-! The consumer's reads as a whole: the register map (R194, R195), the phase error among its values (R199), and port Q
as a pure read (R190). -/

namespace Sys2Proof.Machine

/-! ### The register map -/

/-- The three gaps of the map of R195 name no register. -/
theorem ofNumber_unassigned {r : BitVec 8}
    (h : (0x0B ≤ r.toNat ∧ r.toNat ≤ 0x0F) ∨ (0x19 ≤ r.toNat ∧ r.toNat ≤ 0x1F) ∨ 0x27 ≤ r.toNat) :
    Reg.ofNumber r = none := by
  have outside : assignedRegister r = false := by
    simp only [assignedRegister, Bool.or_eq_false_iff, Bool.and_eq_false_iff, decide_eq_false_iff_not]
    bv_omega
  rwa [← ofNumber_isSome, Option.isSome_eq_false_iff, Option.isNone_iff_eq_none] at outside

/-- An unassigned register number raises IllegalCommand (R194). -/
theorem exec_rdreg_unassigned {s : State} (h : s.Running) {r : BitVec 8} (hr : Reg.ofNumber r = none) :
    ∃ t, exec (.rdreg r) s = .next t ∧ FaultEntry .Q .illegal s t := by
  refine ⟨_, exec_rdreg h r, ?_⟩
  rw [hr]
  exact takeFault_entry s .Q .illegal

/-- RDREG answers every row of the map, each register under its number (R195). -/
theorem exec_rdreg_row {s : State} (h : s.Running) :
    ∀ row ∈ Reg.all.map fun g => (g.number, registerValue s.cfg s.block g),
      exec (.rdreg row.1) s = .next { s with out := .onQ row.2 false } :=
  List.forall_mem_map.2 fun g _ => exec_rdreg_of_number h (ofNumber_number g)

/-- Settles O33: the numbers are those `ofNumber_unassigned` excludes, and the rows are those of `Reg.all`. -/
theorem rdregFollowsTheMap : Obligations.RdregFollowsTheMap := fun _ hr =>
  ⟨fun _ hn => exec_rdreg_unassigned hr (ofNumber_unassigned hn), exec_rdreg_row hr⟩

/-! ### The phase error -/

/-- The distance is taken around the ring of buckets: a remainder by `SUBSEC`, shifted down by `SUBSEC div 2` (R199). -/
theorem phaseErr_range {p : Params} (h : 0 < p.subsec) (sos : Nat) :
    -((p.subsec / 2 : Nat) : Int) ≤ phaseErr p sos ∧
    phaseErr p sos ≤ (p.subsec : Int) - 1 - ((p.subsec / 2 : Nat) : Int) := by
  have pos : (0 : Int) < p.subsec := Int.natCast_pos.2 h
  have nonneg := Int.emod_nonneg ((sos : Int) - p.refBucket + (p.subsec / 2 : Nat)) pos.ne'
  have lt := Int.emod_lt_of_pos ((sos : Int) - p.refBucket + (p.subsec / 2 : Nat)) pos
  rw [phaseErr]
  omega

/-- The remainder drops whole turns of the ring, and the shift by `SUBSEC div 2` is taken back (R199). -/
theorem phaseErr_eq_add_turns (p : Params) (sos : Nat) :
    ∃ k : Int, phaseErr p sos = (sos : Int) - (p.refBucket : Int) + k * (p.subsec : Int) := by
  refine ⟨-(((sos : Int) - p.refBucket + (p.subsec / 2 : Nat)) / p.subsec), ?_⟩
  rw [phaseErr, Int.emod_def]
  ring

/-- Settles O35: the formula is the definition's own. -/
theorem phaseErrorIsTheRingDistance : Obligations.PhaseErrorIsTheRingDistance := fun p sos hp =>
  have ⟨lower, upper⟩ := phaseErr_range (legal_subsec_pos hp) sos
  ⟨rfl, lower, upper, phaseErr_eq_add_turns p sos⟩

/-! ### Port Q -/

/-- Settles O38: of the two effects of a port Q command, an answer leaves the block alone and a fault sets `fault`. -/
theorem queriesWriteNothing : Obligations.QueriesWriteNothing := by
  intro s i hq hr
  obtain ⟨t, ht, ⟨r, rfl⟩ | ⟨cause, -, rfl⟩⟩ := exec_query hr hq
  · exact ⟨_, ht, rfl, rfl, rfl, fun _ => rfl⟩
  · exact ⟨_, ht, rfl, rfl, rfl, nofun⟩

end Sys2Proof.Machine
end

section
/-! The length of a minute and the minute step, said once: which minutes are leap minutes, what the first part of a step
leaves alone, and the four ways a minute rolls over (R212 to R215, R218, R219). -/

namespace Sys2Proof.Machine

/-! ### Leap years and the length of a minute -/

theorem isLeap_iff (year : Nat) : isLeap year = true ↔ LeapYear year := by
  simp [isLeap]

theorem daysInYear_of_leapYear {year : Nat} (h : LeapYear year) : daysInYear year = 366 :=
  if_pos ((isLeap_iff year).2 h)

theorem daysInYear_of_not_leapYear {year : Nat} (h : ¬LeapYear year) : daysInYear year = 365 :=
  if_neg fun leap => h ((isLeap_iff year).1 leap)

/-- The flag, 23:59, and the last day of June or December by its number (R213, D24). -/
theorem leapMinute_iff (t : CalRecord) :
    leapMinute t = true ↔ t.ls = 1 ∧ t.hour = 23 ∧ t.minute = 59 ∧
      (LeapYear t.year → t.yday = 182 ∨ t.yday = 366) ∧ (¬LeapYear t.year → t.yday = 181 ∨ t.yday = 365) := by
  by_cases leap : LeapYear t.year
  · simp [leapMinute, leapShift, (isLeap_iff _).2 leap, leap, and_assoc]
  · simp [leapMinute, leapShift, isLeap_iff, leap, and_assoc]

/-- The sign of the offset decides the length of a leap minute (R214). -/
theorem secondsInMinute_of_leapMinute {t : CalRecord} (h : leapMinute t = true) :
    secondsInMinute t = if t.ut1 < 0 then 61 else if 0 < t.ut1 then 59 else 60 := if_pos h

theorem secondsInMinute_of_not_leapMinute {t : CalRecord} (h : ¬leapMinute t = true) : secondsInMinute t = 60 :=
  if_neg h

/-- Settles O52: `leapMinute_iff` names the leap minutes, and the offset has one of three signs. -/
theorem minuteLength : Obligations.MinuteLength := by
  intro t lastDay leap
  have leap_iff : leapMinute t = true ↔ leap := leapMinute_iff t
  refine ⟨fun h neg => ?_, fun h pos => ?_, fun h zero => ?_,
    fun h => secondsInMinute_of_not_leapMinute (mt leap_iff.1 h)⟩ <;>
    rw [secondsInMinute_of_leapMinute (leap_iff.2 h)]
  · rw [if_pos neg]
  · rw [if_neg pos.not_gt, if_pos pos]
  · simp [zero]

/-! ### The minute step -/

/-- Settling a leap second writes the flag and the offset only (R215). -/
theorem settleLeapSecond_frame (p : Params) (t : CalRecord) :
    ∃ ls ut1, settleLeapSecond p t = { t with ls := ls, ut1 := ut1 } := by
  unfold settleLeapSecond
  split
  · exact ⟨t.ls, t.ut1, rfl⟩
  · exact ⟨0, relaxUt1 p t.ut1, rfl⟩

/-- One relaxation of 10 tenths keeps an offset inside `[-9, 9]` (R220). -/
theorem relaxUt1_bounds {p : Params} (hp : p.ut1Relax = 10) {u : Int} (low : -9 ≤ u) (high : u ≤ 9) :
    -9 ≤ relaxUt1 p u ∧ relaxUt1 p u ≤ 9 := by
  unfold relaxUt1
  rw [hp]
  split
  · omega
  · split <;> omega

theorem settleLeapSecond_wellFormed {p : Params} (hp : p.ut1Relax = 10) {t : CalRecord} (h : t.WellFormed) :
    (settleLeapSecond p t).WellFormed := by
  unfold settleLeapSecond
  split
  · exact h
  · obtain ⟨yday_pos, yday_le, hour, minute, second, dst, low, high, -, ly⟩ := h
    have ⟨low', high'⟩ := relaxUt1_bounds hp low high
    exact ⟨yday_pos, yday_le, hour, minute, second, dst, low', high', Nat.zero_le 1, ly⟩

/-- The four ways a minute rolls over: inside the hour, the day, the year, and at its end (R215, R219). -/
theorem rollMinute_cases {t : CalRecord} (hour : t.hour ≤ 23) (minute : t.minute ≤ 59)
    (yday : t.yday ≤ daysInYear t.year) :
    (t.minute < 59 ∧ rollMinute t = { t with minute := t.minute + 1 }) ∨
    (t.minute = 59 ∧ t.hour < 23 ∧ rollMinute t = { t with minute := 0, hour := t.hour + 1 }) ∨
    (t.minute = 59 ∧ t.hour = 23 ∧ t.yday < daysInYear t.year ∧
      rollMinute t = { t with minute := 0, hour := 0, yday := t.yday + 1, dst := dstRollover t.dst }) ∨
    (t.minute = 59 ∧ t.hour = 23 ∧ t.yday = daysInYear t.year ∧
      rollMinute t = { t with minute := 0, hour := 0, yday := 1, dst := dstRollover t.dst, year := t.year + 1 }) := by
  unfold rollMinute
  split
  next hourEnds =>
    split
    next dayEnds =>
      unfold rollDay
      dsimp only at dayEnds ⊢
      split
      · exact .inr (.inr (.inr ⟨by omega, by omega, by omega, rfl⟩))
      · exact .inr (.inr (.inl ⟨by omega, by omega, by omega, rfl⟩))
    next dayGoesOn => exact .inr (.inl ⟨by omega, by omega, rfl⟩)
  next hourGoesOn => exact .inl ⟨by omega, rfl⟩

theorem dstRollover_le {dst : Nat} (h : dst ≤ 3) : dstRollover dst ≤ 3 := by
  unfold dstRollover
  split
  · omega
  · split <;> omega

theorem rollMinute_wellFormed {t : CalRecord} (h : t.WellFormed) : (rollMinute t).WellFormed := by
  obtain ⟨yday_pos, yday_le, hour, minute, second, dst, rest⟩ := h
  have dst' := dstRollover_le dst
  obtain ⟨_, eq⟩ | ⟨_, _, eq⟩ | ⟨_, _, _, eq⟩ | ⟨_, _, _, eq⟩ := rollMinute_cases hour minute yday_le <;> rw [eq]
  · exact ⟨yday_pos, yday_le, hour, by dsimp only; omega, second, dst, rest⟩
  · exact ⟨yday_pos, yday_le, by dsimp only; omega, Nat.zero_le _, second, dst, rest⟩
  · exact ⟨by dsimp only; omega, by dsimp only; omega, Nat.zero_le _, Nat.zero_le _, second, dst', rest⟩
  · have days := daysInYear_bounds (t.year + 1)
    exact ⟨le_rfl, by dsimp only; omega, Nat.zero_le _, Nat.zero_le _, second, dst', rest⟩

theorem advanceMinute_wellFormed {p : Params} (hp : p.ut1Relax = 10) {t : CalRecord} (h : t.WellFormed) :
    (advanceMinute p t).WellFormed :=
  rollMinute_wellFormed (settleLeapSecond_wellFormed hp h)

/-- A minute step moves the DST state from 23:59 on, and nowhere else (R218). -/
theorem advanceMinute_dst (p : Params) (t : CalRecord) :
    (advanceMinute p t).dst = if 59 ≤ t.minute ∧ 23 ≤ t.hour then dstRollover t.dst else t.dst := by
  obtain ⟨ls, ut1, settled⟩ := settleLeapSecond_frame p t
  rw [advanceMinute, settled]
  unfold rollMinute
  dsimp only
  split
  next hourEnds =>
    split
    next dayEnds =>
      rw [if_pos (by omega)]
      unfold rollDay
      split <;> rfl
    next dayGoesOn => rw [if_neg (by omega)]
  next hourGoesOn => rw [if_neg (by omega)]

theorem advanceMinute_dst_rollover {p : Params} {t : CalRecord} (h : t.hour = 23 ∧ t.minute = 59) :
    (advanceMinute p t).dst = dstRollover t.dst := by
  rw [advanceMinute_dst, if_pos ⟨h.2.ge, h.1.ge⟩]

/-- Rolling a minute touches neither flag (R215). -/
theorem rollMinute_flags (t : CalRecord) : (rollMinute t).ly = t.ly ∧ (rollMinute t).ls = t.ls := by
  unfold rollMinute
  split
  · split
    · unfold rollDay; split <;> exact ⟨rfl, rfl⟩
    · exact ⟨rfl, rfl⟩
  · exact ⟨rfl, rfl⟩

theorem advanceMinute_ly (p : Params) (t : CalRecord) : (advanceMinute p t).ly = t.ly := by
  obtain ⟨ls, ut1, settled⟩ := settleLeapSecond_frame p t
  rw [advanceMinute, (rollMinute_flags _).1, settled]

/-- No minute step sets the leap-second flag (R215). -/
theorem advanceMinute_ls {p : Params} {t : CalRecord} (h : t.ls = 0) : (advanceMinute p t).ls = 0 := by
  rw [advanceMinute, (rollMinute_flags _).2, settleLeapSecond, if_pos (secondsInMinute_of_ls h), h]

end Sys2Proof.Machine
end

section
/-! The two operations that advance a record, by minutes and by seconds: what their steps keep, they keep (R216 to R218,
R225), and how seconds carry into minutes (R216). -/

namespace Sys2Proof.Machine

/-! ### What advancing keeps -/

theorem advanceMinutes_keeps {p : Params} {P : CalRecord → Prop} (step : ∀ t, P t → P (advanceMinute p t))
    {t : CalRecord} (h : P t) (n : Nat) : P (advanceMinutes p t n) := by
  induction n generalizing t with
  | zero => exact h
  | succ n ih => exact ih (step t h)

/-- Whatever a minute step keeps, and writing the second keeps, advancing by seconds keeps. -/
theorem advanceSeconds_keeps {p : Params} {P : CalRecord → Prop} (step : ∀ t, P t → P (advanceMinute p t))
    (second : ∀ t n, P t → P { t with second := n }) {t : CalRecord} (h : P t) (n : Nat) :
    P (advanceSeconds p t n) := by
  have loop : ∀ f t, P t → P (carrySeconds p f t) := by
    intro f
    induction f with
    | zero => exact fun _ h => h
    | succ f ih =>
      intro t h
      rw [carrySeconds]
      split
      · exact ih _ (step _ (second t _ h))
      · exact h
  exact loop _ _ (second t _ h)

/-! ### How seconds carry -/

/-- Any fuel that covers the running seconds gives `advance_seconds` (R216). -/
theorem advanceSeconds_eq_carrySeconds (p : Params) {t : CalRecord} {n f : Nat} (h : t.second + n < 59 * f) :
    advanceSeconds p t n = carrySeconds p f { t with second := t.second + n } :=
  carrySeconds_fuel p (by dsimp only; omega) h

theorem carrySeconds_of_lt {p : Params} {t : CalRecord} (h : t.second < secondsInMinute t) (f : Nat) :
    carrySeconds p f t = t := by
  cases f with
  | zero => rfl
  | succ f => rw [carrySeconds, if_neg h.not_ge]

/-- Seconds that fill the minute carry into the next one (R216). -/
theorem carrySeconds_of_le {p : Params} {t : CalRecord} {n : Nat} (h : secondsInMinute t ≤ n) (f : Nat) :
    carrySeconds p (f + 1) { t with second := n } =
      carrySeconds p f { advanceMinute p t with second := n - secondsInMinute t } := by
  rw [carrySeconds, secondsInMinute_second, if_pos h, ← advanceMinute_with_second]

/-- Seconds added after a carry could as well have been added before it. -/
theorem carrySeconds_add {p : Params} {f : Nat} {t : CalRecord} {n : Nat} (h : t.second + n < 59 * f) :
    carrySeconds p f { carrySeconds p f t with second := (carrySeconds p f t).second + n } =
      carrySeconds p f { t with second := t.second + n } := by
  induction f generalizing t with
  | zero => omega
  | succ f ih =>
    have len := secondsInMinute_bounds t
    by_cases full : secondsInMinute t ≤ t.second
    · let u : CalRecord := { advanceMinute p t with second := t.second - secondsInMinute t }
      have carried : carrySeconds p (f + 1) t = carrySeconds p f u := carrySeconds_of_le full f
      have shrinks : (carrySeconds p f u).second ≤ t.second - secondsInMinute t := carrySeconds_second_le p f u
      rw [carried]
      calc carrySeconds p (f + 1) { carrySeconds p f u with second := (carrySeconds p f u).second + n }
        _ = carrySeconds p f { carrySeconds p f u with second := (carrySeconds p f u).second + n } :=
            carrySeconds_fuel p (by dsimp only; omega) (by dsimp only; omega)
        _ = carrySeconds p f { u with second := t.second - secondsInMinute t + n } :=
            ih (show t.second - secondsInMinute t + n < 59 * f by omega)
        _ = carrySeconds p f { advanceMinute p t with second := t.second + n - secondsInMinute t } := by
            rw [Nat.sub_add_comm full]
        _ = carrySeconds p (f + 1) { t with second := t.second + n } := (carrySeconds_of_le (by omega) f).symm
    · rw [carrySeconds_of_lt (not_le.1 full)]

/-- Settles O58: under one fuel that covers `m + n` seconds, `carrySeconds_add` is the claim. -/
theorem advancingSecondsAdds : Obligations.AdvancingSecondsAdds := by
  intro p t m n
  obtain ⟨f, covers⟩ : ∃ f, t.second + m + n < 59 * f := ⟨t.second + m + n + 1, by omega⟩
  have first : advanceSeconds p t m = carrySeconds p f { t with second := t.second + m } :=
    advanceSeconds_eq_carrySeconds p (by omega)
  have shrinks : (advanceSeconds p t m).second ≤ t.second + m := carrySeconds_second_le p _ _
  calc advanceSeconds p (advanceSeconds p t m) n
    _ = carrySeconds p f { advanceSeconds p t m with second := (advanceSeconds p t m).second + n } :=
        advanceSeconds_eq_carrySeconds p (by omega)
    _ = carrySeconds p f { t with second := t.second + m + n } := by
        rw [first, carrySeconds_add (by dsimp only; omega)]
    _ = advanceSeconds p t (m + n) := by rw [advanceSeconds_eq_carrySeconds p (f := f) (by omega), Nat.add_assoc]

/-- With every minute 60 seconds long the carry is a division (R216). -/
theorem carrySeconds_eq_advanceMinutes {p : Params} {f : Nat} {t : CalRecord} (ls : t.ls = 0) (h : t.second < 59 * f) :
    carrySeconds p f t = advanceMinutes p { t with second := t.second % 60 } (t.second / 60) := by
  induction f generalizing t with
  | zero => omega
  | succ f ih =>
    have len := secondsInMinute_of_ls ls
    by_cases full : 60 ≤ t.second
    · calc carrySeconds p (f + 1) t
        _ = carrySeconds p f { advanceMinute p t with second := t.second - secondsInMinute t } :=
            carrySeconds_of_le (by omega) f
        _ = advanceMinutes p { advanceMinute p t with second := (t.second - secondsInMinute t) % 60 }
              ((t.second - secondsInMinute t) / 60) := ih (advanceMinute_ls ls) (by dsimp only; omega)
        _ = advanceMinutes p { t with second := t.second % 60 } (t.second / 60) := by
            rw [← advanceMinute_with_second, len, Nat.div_eq_sub_div (by decide) full, Nat.mod_eq_sub_mod full,
              advanceMinutes]
    · rw [carrySeconds_of_lt (by omega), Nat.mod_eq_of_lt (by omega), Nat.div_eq_of_lt (by omega), advanceMinutes]

/-- Settles O57: the leap-second flag stays 0, so `carrySeconds_eq_advanceMinutes` divides the whole run. -/
theorem secondsByDivision : Obligations.SecondsByDivision := fun p t n ls =>
  carrySeconds_eq_advanceMinutes (t := { t with second := t.second + n }) ls (by dsimp only; omega)

/-- The loop has fuel for every minute, so it ends inside one (R216, R225). -/
theorem advanceSeconds_second_lt (p : Params) (t : CalRecord) (n : Nat) :
    (advanceSeconds p t n).second < secondsInMinute (advanceSeconds p t n) :=
  carrySeconds_second_lt p (by dsimp only; omega)

/-- Settles O56: no minute is longer than 61 seconds. -/
theorem secondsStayInTheirMinute : Obligations.SecondsStayInTheirMinute := by
  intro p t n _
  have lt := advanceSeconds_second_lt p t n
  have len := secondsInMinute_bounds (advanceSeconds p t n)
  exact ⟨lt, fun sixty => by omega⟩

/-! ### Well-formedness and the DST state -/

/-- A record is well formed when it is with its second at 0, and its second is at most 60 (R211). -/
theorem wellFormed_of_second {t : CalRecord} (h : CalRecord.WellFormed { t with second := 0 })
    (second : t.second ≤ 60) : t.WellFormed := by
  obtain ⟨yday_pos, yday_le, hour, minute, -, rest⟩ := h
  exact ⟨yday_pos, yday_le, hour, minute, second, rest⟩

/-- Settles O54: while seconds carry, the record is well formed but for its second, which ends inside its minute. -/
theorem advancingKeepsWellFormed : Obligations.AdvancingKeepsWellFormed := by
  intro p t n hp h
  refine ⟨advanceMinutes_keeps (P := CalRecord.WellFormed) (fun _ => advanceMinute_wellFormed hp) h n, ?_⟩
  have but_second : CalRecord.WellFormed { advanceSeconds p t n with second := 0 } := by
    refine advanceSeconds_keeps (P := fun u => CalRecord.WellFormed { u with second := 0 }) (fun u hu => ?_)
      (fun _ _ hu => hu) ?_ n
    · rw [← advanceMinute_with_second]
      exact advanceMinute_wellFormed hp hu
    · obtain ⟨yday_pos, yday_le, hour, minute, -, rest⟩ := h
      exact ⟨yday_pos, yday_le, hour, minute, Nat.zero_le _, rest⟩
  have lt := advanceSeconds_second_lt p t n
  have len := secondsInMinute_bounds (advanceSeconds p t n)
  exact wellFormed_of_second but_second (by omega)

/-- A rollover leads to state 1 or 2 from nowhere (R218). -/
theorem advanceMinute_dst_origin {p : Params} {t : CalRecord} {state : Nat} (hs : state = 1 ∨ state = 2)
    (h : (advanceMinute p t).dst = state) : t.dst = state := by
  rw [advanceMinute_dst] at h
  split at h
  · unfold dstRollover at h
    split at h
    · omega
    · split at h <;> omega
  · exact h

/-- In a minute of 60 seconds, one second from second 59 is a minute step to second 0 (R216). -/
theorem advanceSeconds_one_of_last {p : Params} {t : CalRecord} (second : t.second = 59)
    (len : secondsInMinute t = 60) : advanceSeconds p t 1 = { advanceMinute p t with second := 0 } := by
  have next := secondsInMinute_bounds (advanceMinute p t)
  calc advanceSeconds p t 1
    _ = carrySeconds p 2 { t with second := 60 } := by rw [advanceSeconds_eq_carrySeconds p (f := 2) (by omega), second]
    _ = carrySeconds p 1 { advanceMinute p t with second := 0 } := by rw [carrySeconds_of_le len.le, len]
    _ = { advanceMinute p t with second := 0 } :=
        carrySeconds_of_lt (show 0 < secondsInMinute (advanceMinute p t) by omega) 1

/-- Settles O53: `advanceMinute_dst` for one step, and the way back to where a run began for any number of them. -/
theorem dstMovesAtTheDayRollover : Obligations.DstMovesAtTheDayRollover := by
  intro p t
  refine ⟨fun hour minute => ⟨?_, ?_, ?_⟩, fun hour minute second len => ?_, fun n state hs => ⟨?_, ?_⟩⟩
  · exact fun last dst => by rw [advanceMinute_dst_rollover last, dst]; rfl
  · exact fun last dst => by rw [advanceMinute_dst_rollover last, dst]; rfl
  · rintro (early | ⟨not_one, not_two⟩)
    · rw [advanceMinute_dst, if_neg (by omega)]
    · simp [advanceMinute_dst, dstRollover, not_one, not_two]
  · have rolled := advanceMinute_dst_rollover (p := p) ⟨hour, minute⟩
    rw [advanceSeconds_one_of_last second len]
    exact ⟨fun dst => ⟨rfl, by rw [rolled, dst]; rfl⟩, fun dst => ⟨rfl, by rw [rolled, dst]; rfl⟩⟩
  · exact advanceMinutes_keeps (P := fun u => u.dst = state → t.dst = state)
      (fun _ back h => back (advanceMinute_dst_origin hs h)) id n
  · exact advanceSeconds_keeps (P := fun u => u.dst = state → t.dst = state)
      (fun _ back h => back (advanceMinute_dst_origin hs h)) (fun _ _ back => back) id n

/-- Settles O60: the fixture, run. -/
theorem leapSecondFixture : Obligations.LeapSecondFixture := by
  unfold Obligations.LeapSecondFixture
  decide

end Sys2Proof.Machine
end

section
/-! The absolute second: a minute step adds 60 to it (R215, R221), and stripping whole years off it gives the date back
(R222). -/

namespace Sys2Proof.Machine

theorem settleLeapSecond_toUtc (p : Params) (t : CalRecord) : toUtc (settleLeapSecond p t) = toUtc t := by
  obtain ⟨ls, ut1, settled⟩ := settleLeapSecond_frame p t
  rw [settled]
  rfl

/-- Rolling a minute is one minute of UTC, the end of the year among the four ways (R219, R221). -/
theorem rollMinute_toUtc {t : CalRecord} (yday_pos : 1 ≤ t.yday) (yday_le : t.yday ≤ daysInYear t.year)
    (hour : t.hour ≤ 23) (minute : t.minute ≤ 59) : toUtc (rollMinute t) = toUtc t + 60 := by
  obtain ⟨_, eq⟩ | ⟨_, _, eq⟩ | ⟨_, _, _, eq⟩ | ⟨_, _, _, eq⟩ := rollMinute_cases hour minute yday_le <;>
    simp only [eq, toUtc, yearBase] <;> omega

/-- Settles O55: settling a leap second leaves UTC alone, and the roll is 60 seconds of it. -/
theorem minuteStepIsOneMinuteOfUtc : Obligations.MinuteStepIsOneMinuteOfUtc := by
  refine ⟨fun year => ⟨daysInYear_of_leapYear, daysInYear_of_not_leapYear⟩,
    fun p t => ⟨fun h => ?_, advanceMinute_ly p t, advanceMinute_second p t⟩⟩
  obtain ⟨yday_pos, yday_le, hour, minute, -⟩ := h
  obtain ⟨ls, ut1, settled⟩ := settleLeapSecond_frame p t
  rw [advanceMinute, rollMinute_toUtc (by rwa [settled]) (by rwa [settled]) (by rwa [settled]) (by rwa [settled]),
    settleLeapSecond_toUtc]

theorem yearBase_ge (year : Nat) : 86400 * 365 * year ≤ yearBase year := by
  induction year with
  | zero => exact le_rfl
  | succ year ih =>
    have days := daysInYear_bounds year
    rw [yearBase]
    omega

theorem yearBase_mono {y z : Nat} (h : y ≤ z) : yearBase y ≤ yearBase z :=
  monotone_nat_of_le_succ (fun year => Nat.le_add_right (yearBase year) _) h

/-- Stripping from year `y` on, with fuel for `k` years, ends in year `y + k` with the seconds into that year (R222). -/
theorem stripYears_yearBase {k f y a r : Nat} (fuel : k ≤ f) (h : yearBase y + a = yearBase (y + k) + r)
    (hr : r < 86400 * daysInYear (y + k)) : stripYears f y a = (y + k, r) := by
  induction k generalizing f y a with
  | zero =>
    obtain rfl : a = r := by simpa using h
    cases f with
    | zero => rfl
    | succ f => exact if_neg (not_le.2 hr)
  | succ k ih =>
    obtain ⟨f, rfl⟩ := Nat.exists_eq_succ_of_ne_zero (by omega : f ≠ 0)
    have shift : y + (k + 1) = y + 1 + k := by omega
    rw [shift] at h hr ⊢
    have base : yearBase (y + 1) = yearBase y + 86400 * daysInYear y := rfl
    have mono : yearBase (y + 1) ≤ yearBase (y + 1 + k) := yearBase_mono (Nat.le_add_right _ _)
    rw [stripYears, if_pos (by omega)]
    exact ih (by omega) (by omega) hr

/-- The years stripped are those before, and division splits the rest of the count (R222). -/
theorem fromAbs_yearBase {year r : Nat} (hr : r < 86400 * daysInYear year) :
    fromAbs (yearBase year + r) = ⟨year, r / 86400 + 1, r % 86400 / 3600, r % 3600 / 60, r % 60⟩ := by
  have base := yearBase_ge year
  have stripped : stripYears ((yearBase year + r) / (86400 * 365) + 1) 0 (yearBase year + r) = (0 + year, r) :=
    stripYears_yearBase (by omega) (by rw [Nat.zero_add, yearBase, Nat.zero_add]) (by rwa [Nat.zero_add])
  rw [fromAbs, stripped, Nat.zero_add]

/-- Settles O59: the seconds into the year are its days, hours, minutes and seconds, so the divisions give them back. -/
theorem fromAbsInvertsToUtc : Obligations.FromAbsInvertsToUtc := by
  intro t h sec
  obtain ⟨yday_pos, yday_le, hour, minute, -⟩ := h
  rw [toUtc, min_eq_left sec, fromAbs_yearBase (by omega), CalRecord.civil]
  congr 1 <;> omega

end Sys2Proof.Machine
end

section
/-! The events TICK puts out, read off the block it leaves (R175, R250). -/

namespace Sys2Proof.Machine

/-- `ev_second` is the `new_second` of the step (R250). -/
theorem tick_evSecond (p : Params) (smp : Bool) (b : Block) :
    (tick p smp b).2.second = (tick p smp b).1.newSecond := by
  rcases tick_cases p smp b with ⟨-, ht⟩ | ⟨-, -, ht⟩ | ⟨-, -, ht⟩ <;> rw [ht]
  · rfl
  · rfl
  · rw [latchFrame_newSecond, closeSecond_newSecond]

/-- `ev_symbol` is the `last_sym` after the step (R250). -/
theorem tick_evSymbol (p : Params) (smp : Bool) (b : Block) :
    (tick p smp b).2.symbol = (tick p smp b).1.lastSym := by
  rcases tick_cases p smp b with ⟨-, ht⟩ | ⟨-, -, ht⟩ | ⟨-, -, ht⟩ <;> rw [ht]
  · rfl
  · exact (latchFrame_lastSym ..).symm

theorem frameLatched_iff {res : FrameResult} : frameLatched res = true ↔ ∃ r, res = .decoded r := by
  cases res <;> simp [frameLatched]

/-- A TICK that attempts no decode puts out no `ev_frame` (R250). -/
theorem tick_evFrame_of_not_mark {p : Params} {smp : Bool} {b : Block}
    (h : ¬((tick p smp b).1.newSecond = true ∧ (tick p smp b).1.lastSym = symMark)) :
    (tick p smp b).2.frame = false := by
  rcases tick_cases p smp b with ⟨-, ht⟩ | ⟨-, -, ht⟩ | ⟨-, hm, ht⟩ <;> rw [ht] at h ⊢
  exact absurd ⟨latchFrame_newSecond .., (latchFrame_lastSym ..).trans hm⟩ h

/-- `ev_frame` marks a boundary that pushed a Mark and whose window decodes (R175, R250). -/
theorem tick_evFrame_iff (p : Params) (smp : Bool) (b : Block) :
    (tick p smp b).2.frame = true ↔ (tick p smp b).1.newSecond = true ∧ (tick p smp b).1.lastSym = symMark ∧
      ∃ r, fdecode p (tick p smp b).1.sring = .decoded r := by
  by_cases mark : (tick p smp b).1.newSecond = true ∧ (tick p smp b).1.lastSym = symMark
  · obtain ⟨hn, hm⟩ := mark
    have attempt : (tick p smp b).2.frame = frameLatched (fdecode p (tick p smp b).1.sring) :=
      congrArg (·.2.frame) (tick_of_mark hn hm)
    rw [attempt, frameLatched_iff]
    exact ⟨fun decoded => ⟨hn, hm, decoded⟩, fun ⟨_, _, decoded⟩ => decoded⟩
  · rw [tick_evFrame_of_not_mark mark]
    exact ⟨nofun, fun ⟨hn, hm, _⟩ => absurd ⟨hn, hm⟩ mark⟩

/-- Settles O25: each event output of TICK in terms of the block it leaves. -/
theorem tickEvents : Obligations.TickEvents := by
  intro s smp hr
  refine ⟨_, (tick s.cfg smp s.block).2.frame, exec_tick hr smp, ?_, tick_evFrame_iff ..⟩
  rw [takeSample_out, takeSample_block, tick_evSecond, tick_evSymbol]

end Sys2Proof.Machine
end

section
/-! A halted block without the reset input stays as the fault left it (R243, R270). -/

namespace Sys2Proof.Machine

/-- Without reset a halted block neither enters a fault again nor takes a sample (R243). -/
theorem QuietStep.eq_of_halted {p : Params} {b c : Block} (h : QuietStep p b c) (hb : b.fault = true) : c = b := by
  cases h with
  | stays => rfl
  | faults cause _ running => rw [hb] at running; cases running
  | ticks smp running => rw [hb] at running; cases running

/-- Settles O43, by induction on the number of steps: `step_quiet` keeps the premises, and the block stays. -/
theorem onlyResetLeavesTheHaltedState : Obligations.OnlyResetLeavesTheHaltedState := by
  intro s n
  induction n generalizing s with
  | zero => exact fun _ _ => ⟨s, rfl, rfl⟩
  | succ n ih =>
    intro halted no_reset
    obtain ⟨s', hs⟩ := step_total s
    obtain ⟨-, no_reset', quiet⟩ := step_quiet no_reset hs
    have same : s'.block = s.block := quiet.eq_of_halted halted
    rw [run_succ hs, ← same]
    exact ih s' (by rwa [State.Halted, same]) no_reset'

end Sys2Proof.Machine
end
